-- ==== Sys2Proof/Word.lean ====
section
/-!
DEFINITION. The value types of spec/00_scope.md rule R10: Byte, Word, DWord, the 16-bit control word, and the four-word
group the spec writes (A, B, C, D).
-/

namespace Sys2Proof

/-- An unsigned 8-bit value (R10). -/
abbrev Byte := BitVec 8

/-- An unsigned 32-bit value (R10); `+` on it is the spec's `+32`, addition mod 2^32 (R11, R133). -/
abbrev Word := BitVec 32

/-- An unsigned 64-bit value (R10). -/
abbrev DWord := BitVec 64

/-- A value of the sequencer control word `SEQ` (R21, R71). -/
abbrev SeqWord := BitVec 16

/-- A round index, the 6-bit field `RI` (R71, R73). -/
abbrev RoundIndex := BitVec 6

/-- Four words in the order A, B, C, D (R31: the order of the initial constants). -/
structure Quad where
  a : Word
  b : Word
  c : Word
  d : Word
  deriving DecidableEq, Repr

/-- Word by word addition mod 2^32, as R161 writes `H_k +32 C`. -/
def Quad.add (x y : Quad) : Quad :=
  ⟨x.a + y.a, x.b + y.b, x.c + y.c, x.d + y.d⟩

end Sys2Proof
end

