-- ==== Sys2Proof/Config.lean ====
section
/-!
DEFINITION. The open parameters of spec/00_scope.md rule R9 that fix one machine. `N_INST` is the number of engines the
state holds (Machine/State.lean).
-/

namespace Sys2Proof

/-- `MAX_MSG_BYTES` and `BLK_BITS` of R9; `none` is the spec's `unbounded`. -/
structure Params where
  maxMsgBytes : Option Nat
  blkBits     : Option Nat
  deriving DecidableEq, Repr

/-- The defaults of R9: both unbounded. -/
def Params.default : Params := ⟨none, none⟩

/-- START admits a message of this length (R205). -/
def Params.admits (p : Params) (len : Nat) : Bool :=
  match p.maxMsgBytes with
  | none => true
  | some m => decide (len ≤ m)

/-- The constraint R9 puts on a finite `BLK_BITS`: 2^BLK_BITS > (MAX_MSG_BYTES + 72) / 64. No finite width satisfies it
when messages are unbounded. -/
def Params.fits (p : Params) : Bool :=
  match p.blkBits, p.maxMsgBytes with
  | none, _ => true
  | some _, none => false
  | some w, some m => decide ((m + 72) / 64 < 2 ^ w)

end Sys2Proof
end

