-- ==== Sys2Proof/Syntax.lean ====
section
/-!
DEFINITION. The instructions: one constructor per row of spec/opcode_table.json (R82: 13 micro-operations and 3 host
commands), and the host lines and pseudo-instructions of R80 and R81 as data.
-/

namespace Sys2Proof

/-- A micro-operation selected by `SEQ` (R72) or a host command (R78). Every other operand is implicit (R74). -/
inductive Instr where
  | idle
  | init
  | padm
  | padz
  | aplen
  | loadb
  | roundf (i : RoundIndex)
  | roundg (i : RoundIndex)
  | roundh (i : RoundIndex)
  | roundi (i : RoundIndex)
  | accum
  | serial
  | done
  | start (msg : List Byte)
  | rdstat
  | rddig
  deriving DecidableEq, Repr

/-- The format a row of the table belongs to (R70). -/
inductive Format where
  | seq
  | hostcmd
  deriving DecidableEq, Repr

/-- The format of an instruction (R70): the micro-operations are `SEQ` values, the commands `HOSTCMD` codes. -/
def Instr.format : Instr → Format
  | .idle => .seq
  | .init => .seq
  | .padm => .seq
  | .padz => .seq
  | .aplen => .seq
  | .loadb => .seq
  | .roundf _ => .seq
  | .roundg _ => .seq
  | .roundh _ => .seq
  | .roundi _ => .seq
  | .accum => .seq
  | .serial => .seq
  | .done => .seq
  | .start _ => .hostcmd
  | .rdstat => .hostcmd
  | .rddig => .hostcmd

/-- One line of a host program (R80), with the pseudo-instructions `WAIT` and `DIGEST` of R81 and, as program P6 writes
it, a raw command code. -/
inductive HostLine where
  | start (msg : List Byte)
  | rdstat
  | rddig
  | wait
  | digest (msg : List Byte)
  | raw (code : Byte) (payload : List Byte)
  deriving DecidableEq, Repr

/-- The bytes of an ASCII text (R80: `START "<text>"` is the message as ASCII text). -/
def asciiBytes (text : String) : List Byte :=
  text.toList.map fun ch => BitVec.ofNat 8 ch.toNat

end Sys2Proof
end

