-- ==== Sys2Proof/WellFormed.lean ====
section
/-!
DEFINITION. Which terms of `Instr` stand for an instruction of the spec: a round's index lies in the quarter its mnemonic
names (R72, R140 to R143). Every finite byte sequence is a message (R205).
-/

namespace Sys2Proof

/-- The index `i` lies in quarter `q`: `RI[5:4]` = `q` (R72, R73). -/
def inQuarter (q : Nat) (i : RoundIndex) : Bool :=
  decide (16 * q ≤ i.toNat ∧ i.toNat < 16 * q + 16)

/-- The check on syntax. -/
def Instr.wellFormed : Instr → Bool
  | .idle => true
  | .init => true
  | .padm => true
  | .padz => true
  | .aplen => true
  | .loadb => true
  | .roundf i => inQuarter 0 i
  | .roundg i => inQuarter 1 i
  | .roundh i => inQuarter 2 i
  | .roundi i => inQuarter 3 i
  | .accum => true
  | .serial => true
  | .done => true
  | .start _ => true
  | .rdstat => true
  | .rddig => true

end Sys2Proof
end

