-- ==== Sys2Proof/Decode.lean ====
section
/-!
DEFINITION. Decoding (spec/30_encoding.md rules R70 to R76, R78; R207), total and rejecting by name, and after it the
encoder written from the same tables.
-/

namespace Sys2Proof

/-- What a decoder is given (R70): a 16-bit `SEQ` value, or an 8-bit host command code with the payload that travels with
it as one value (R78). -/
inductive Encoded where
  | seq (w : SeqWord)
  | host (code : Byte) (payload : List Byte)
  deriving DecidableEq, Repr

/-- Why a decoder refuses: R76 and R207. -/
inductive DecodeError where
  /-- `SEQ` is one of the illegal encodings of R76. -/
  | illegalSeq (w : SeqWord)
  /-- The code is a reserved one of R78 (R207). -/
  | illegalHostCmd (code : Byte)
  deriving DecidableEq, Repr

/-- The field `OP` of `SEQ`, bits 15:12 (R71). -/
def opField (w : SeqWord) : BitVec 4 := w.extractLsb' 12 4

/-- The field `RSV` of `SEQ`, bits 11:6 (R71). -/
def rsvField (w : SeqWord) : BitVec 6 := w.extractLsb' 6 6

/-- The field `RI` of `SEQ`, bits 5:0 (R71, R73). -/
def riField (w : SeqWord) : RoundIndex := w.extractLsb' 0 6

/-- `[ROUNDF, ROUNDG, ROUNDH, ROUNDI][ri[5:4]](ri)` of R75; also the pseudo-instruction `ROUND i` of R81. -/
def roundInstr (i : RoundIndex) : Instr :=
  match (i.extractLsb' 4 2).toNat with
  | 0 => .roundf i
  | 1 => .roundg i
  | 2 => .roundh i
  | _ => .roundi i

/-- Decoding of `SEQ`, total on all 2^16 values (R75). -/
def decodeSeq (w : SeqWord) : Except DecodeError Instr :=
  if rsvField w ≠ 0#6 then .error (.illegalSeq w)
  else if opField w = 0x6#4 then .ok (roundInstr (riField w))
  else if riField w ≠ 0#6 then .error (.illegalSeq w)
  else
    match (opField w).toNat with
    | 0x0 => .ok .idle
    | 0x1 => .ok .init
    | 0x2 => .ok .padm
    | 0x3 => .ok .padz
    | 0x4 => .ok .aplen
    | 0x5 => .ok .loadb
    | 0x7 => .ok .accum
    | 0x8 => .ok .serial
    | 0x9 => .ok .done
    | _ => .error (.illegalSeq w)

/-- Decoding of a host command (R78, R207). RDSTAT and RDDIG name no payload, so none is read for them (log 14). -/
def decodeHost (code : Byte) (payload : List Byte) : Except DecodeError Instr :=
  match code.toNat with
  | 0x01 => .ok (.start payload)
  | 0x02 => .ok .rdstat
  | 0x03 => .ok .rddig
  | _ => .error (.illegalHostCmd code)

/-- The decoder: the format alone says which of the two decodings applies (R70). -/
def decode : Encoded → Except DecodeError Instr
  | .seq w => decodeSeq w
  | .host code payload => decodeHost code payload

/-- `enc(op, i) = {OP(op)[3:0], 000000, i[5:0]}` (R71). -/
def enc (op : BitVec 4) (i : RoundIndex) : SeqWord :=
  (op ++ (0#6)) ++ i

/-- The encoder, from the tables of R72 and R78. -/
def encode : Instr → Encoded
  | .idle => .seq (enc 0x0#4 0#6)
  | .init => .seq (enc 0x1#4 0#6)
  | .padm => .seq (enc 0x2#4 0#6)
  | .padz => .seq (enc 0x3#4 0#6)
  | .aplen => .seq (enc 0x4#4 0#6)
  | .loadb => .seq (enc 0x5#4 0#6)
  | .roundf i => .seq (enc 0x6#4 i)
  | .roundg i => .seq (enc 0x6#4 i)
  | .roundh i => .seq (enc 0x6#4 i)
  | .roundi i => .seq (enc 0x6#4 i)
  | .accum => .seq (enc 0x7#4 0#6)
  | .serial => .seq (enc 0x8#4 0#6)
  | .done => .seq (enc 0x9#4 0#6)
  | .start msg => .host 0x01 msg
  | .rdstat => .host 0x02 []
  | .rddig => .host 0x03 []

/-- The instruction the decoder reads from a word of spec/opcode_table.json: a row of 16 bits is a `SEQ` value, a row of
8 bits a host command code with every bit above it 0, that is, with an empty payload (log 20). -/
def decodeTableWord (nbits w : Nat) : Option Instr :=
  match nbits with
  | 16 => (decodeSeq (BitVec.ofNat 16 w)).toOption
  | 8 => (decodeHost (BitVec.ofNat 8 w) []).toOption
  | _ => none

end Sys2Proof
end

