-- ==== Sys2Proof/Machine/State.lean ====
section
/-!
DEFINITION. The machine's state as plain data: every piece of state of spec/10_state.md rule R20 for each instance of the
core (R40), the fault record (R39), the open parameters (R9), and the model's own agenda, selection and reply.
-/

namespace Sys2Proof.Machine

/-- What a register holds: the spec gives "unwritten (holds no value)" as the reset value of every register but `SEQ`
(R34, R38), so it is a value of this type and not a missing one (log 1). -/
inductive Reg (α : Type) where
  | unwritten
  | holds (v : α)
  deriving DecidableEq, Repr

/-- The names a fault record can give for a register (R222, code 4). -/
inductive RegName where
  | buf
  | ol
  | ha
  | hb
  | hc
  | hd
  | a
  | b
  | c
  | d
  | m (j : Fin 16)
  | blk
  | dout (n : Fin 32)
  deriving DecidableEq, Repr

/-- The seven model faults of R222 with the record each keeps. `seq` is the `SEQ` of the engine when the fault is raised. -/
inductive CoreFault where
  /-- Code 1: `SEQ` decodes to Illegal. -/
  | illegalSeq (seq : SeqWord)
  /-- Code 2: a rotation amount outside 1..31; `seq` gives the round index. -/
  | badRotate (seq : SeqWord)
  /-- Code 3: a read beyond the end of `BUF`; `index` is the byte index of the read (log 11). -/
  | bufRange (seq : SeqWord) (index : Nat)
  /-- Code 4: a read of a register that holds no value. -/
  | unwrittenRead (seq : SeqWord) (reg : RegName)
  /-- Code 5: START while `STATUS.BUSY` = 1, with the command code. -/
  | startWhileBusy (seq : SeqWord) (code : Byte)
  /-- Code 6: RDDIG while `SEQ` is not DONE, with the command code. -/
  | earlyDigestRead (seq : SeqWord) (code : Byte)
  /-- Code 7: a reserved command code, with that code. -/
  | illegalHostCmd (seq : SeqWord) (code : Byte)
  deriving DecidableEq, Repr

/-- `BUF` as (byte index, byte) cells; its canonical form is `Memory.wf` in Machine/Ops.lean (log 13). -/
abbrev Memory := List Host.Cell

/-- One instance of the core: R20, row by row, and the fault record of R39. -/
structure Engine where
  seq    : SeqWord
  buf    : Reg Memory
  ol     : Reg DWord
  ha     : Reg Word
  hb     : Reg Word
  hc     : Reg Word
  hd     : Reg Word
  a      : Reg Word
  b      : Reg Word
  c      : Reg Word
  d      : Reg Word
  m      : Vector (Reg Word) 16
  blk    : Reg Nat
  dout   : Vector (Reg Byte) 32
  faults : List CoreFault
  deriving DecidableEq, Repr

/-- One coming move, addressed to the instance with index `k` (R206, R232, R250). -/
inductive Event where
  /-- Engine `k` takes a core step (R183). -/
  | core (k : Nat)
  /-- The host issues a command to engine `k` (R78, R200 to R207). -/
  | host (k : Nat) (code : Byte) (payload : List Byte)
  /-- The host waits on engine `k`: RDSTAT until `STATUS.DONE` = 1 (R81, log 17). -/
  | wait (k : Nat)
  /-- The platform asserts reset of engine `k` (R250). -/
  | reset (k : Nat)
  deriving DecidableEq, Repr

/-- What the host received from its latest command: R78's "result out" (log 6). -/
inductive Reply where
  | nothing
  | status (value : Byte)
  | digest (chars : Vector Byte 32)
  deriving DecidableEq, Repr

/-- The whole machine. `engines` holds the `N_INST` instances by index (R40, R232); `params` never changes; `agenda`, `sel`
and `reply` are the model's own (logs 5, 6, 7). -/
structure State where
  params  : Params
  engines : List Engine
  sel     : Nat
  agenda  : List Event
  reply   : Reply
  deriving DecidableEq, Repr

/-- Why the model itself stops. The spec's own faults are not here: they are recorded, and the machine goes on (log 2). -/
inductive Fault where
  /-- Raised by every step or meaning whose move names an index outside 0..N_INST-1 (R232: no such instance exists).
  Safe: the model stops where the hardware has no move (log 8). -/
  | noSuchEngine
  deriving DecidableEq, Repr

/-- Why a meaning is refused. No arm of exec is refused in this model. -/
inductive Refusal where
  /-- Raised by an arm of exec for an instruction without a meaning. Safe: the model stops. -/
  | notModelled (mnemonic : String)
  deriving DecidableEq, Repr

/-- An engine right after reset (R38): `SEQ` = 0x0000, the fault record empty, everything else unwritten. -/
def Engine.reset : Engine where
  seq := 0x0000
  buf := .unwritten
  ol := .unwritten
  ha := .unwritten
  hb := .unwritten
  hc := .unwritten
  hd := .unwritten
  a := .unwritten
  b := .unwritten
  c := .unwritten
  d := .unwritten
  m := Vector.replicate 16 .unwritten
  blk := .unwritten
  dout := Vector.replicate 32 .unwritten
  faults := []

/-- A machine with parameters `p` and `n` instances, each right after reset (R9, R38, R40). -/
def State.powerOn (p : Params) (n : Nat) : State where
  params := p
  engines := List.replicate n Engine.reset
  sel := 0
  agenda := []
  reply := .nothing

/-- The machine right after reset with the defaults of R9: one instance, unbounded messages. -/
def State.reset : State := State.powerOn Params.default 1

end Sys2Proof.Machine
end

