-- ==== Sys2Proof/Machine/Flags.lean ====
section
/-!
DEFINITION. The core has no arithmetic flags (spec/10_state.md rule R36). Its one status word is the view STATUS, computed
from `SEQ` (R35).
-/

namespace Sys2Proof.Machine

/-- `STATUS.BUSY`: `SEQ[15:12]` is neither IDLE nor DONE (R35). -/
def busy (w : SeqWord) : Bool := opField w ≠ 0x0#4 && opField w ≠ 0x9#4

/-- `STATUS.DONE`: `SEQ[15:12]` is DONE (R35). -/
def isDone (w : SeqWord) : Bool := opField w == 0x9#4

/-- `STATUS` (R35): bit 0 BUSY, bit 1 DONE, bits 7:2 read as 0. -/
def statusOf (w : SeqWord) : Byte :=
  ((0#6) ++ BitVec.ofBool (isDone w)) ++ BitVec.ofBool (busy w)

end Sys2Proof.Machine
end

