-- ==== Sys2Proof/Machine/Operands.lean ====
section
/-!
DEFINITION. The operands of a round (spec/42_compression.md): the constant tables, the auxiliary functions, the message
index, left rotation and the round's arithmetic; the initial constants (R31); register reads (R34).
-/

namespace Sys2Proof.Machine

/-- The read of a register, the primitive `R` of R13: an unwritten one raises UnwrittenRead (R34). -/
def Engine.read {α : Type} (e : Engine) (name : RegName) (r : Reg α) : Except CoreFault α :=
  match r with
  | .holds v => .ok v
  | .unwritten => .error (.unwrittenRead e.seq name)

/-- The initial-state constants `IV` (R31). -/
def iv : Quad := ⟨0x67452301, 0xEFCDAB89, 0x98BADCFE, 0x10325476⟩

/-- The 16 rotation values T of R131, in the order listed. -/
def shiftValues : List Nat :=
  [7, 12, 17, 22] ++ [5, 9, 14, 20] ++ [4, 11, 16, 23] ++ [6, 10, 15, 21]

/-- `S[i] = T[4·floor(i/16) + (i mod 4)]` (R131). -/
def shiftAmount (i : RoundIndex) : Nat :=
  shiftValues.getD (4 * (i.toNat / 16) + i.toNat % 4) 0

/-- The table K of R132. -/
def constValues : List Word :=
  [0xD76AA478, 0xE8C7B756, 0x242070DB, 0xC1BDCEEE, 0xF57C0FAF, 0x4787C62A, 0xA8304613, 0xFD469501]
  ++ [0x698098D8, 0x8B44F7AF, 0xFFFF5BB1, 0x895CD7BE, 0x6B901122, 0xFD987193, 0xA679438E, 0x49B40821]
  ++ [0xF61E2562, 0xC040B340, 0x265E5A51, 0xE9B6C7AA, 0xD62F105D, 0x02441453, 0xD8A1E681, 0xE7D3FBC8]
  ++ [0x21E1CDE6, 0xC33707D6, 0xF4D50D87, 0x455A14ED, 0xA9E3E905, 0xFCEFA3F8, 0x676F02D9, 0x8D2A4C8A]
  ++ [0xFFFA3942, 0x8771F681, 0x6D9D6122, 0xFDE5380C, 0xA4BEEA44, 0x4BDECFA9, 0xF6BB4B60, 0xBEBFBC70]
  ++ [0x289B7EC6, 0xEAA127FA, 0xD4EF3085, 0x04881D05, 0xD9D4D039, 0xE6DB99E5, 0x1FA27CF8, 0xC4AC5665]
  ++ [0xF4292244, 0x432AFF97, 0xAB9423A7, 0xFC93A039, 0x655B59C3, 0x8F0CCC92, 0xFFEFF47D, 0x85845DD1]
  ++ [0x6FA87E4F, 0xFE2CE6E0, 0xA3014314, 0x4E0811A1, 0xF7537E82, 0xBD3AF235, 0x2AD7D2BB, 0xEB86D391]

/-- `K[i]` (R132). -/
def roundConst (i : RoundIndex) : Word :=
  constValues.getD i.toNat 0

/-- F (R135). -/
def auxF (b c d : Word) : Word := (b &&& c) ||| (~~~b &&& d)

/-- G (R136). -/
def auxG (b c d : Word) : Word := (d &&& b) ||| (~~~d &&& c)

/-- H (R137). -/
def auxH (b c d : Word) : Word := b ^^^ c ^^^ d

/-- I (R138). -/
def auxI (b c d : Word) : Word := c ^^^ (b ||| ~~~d)

/-- The message-word index g(i) (R139), the products over natural numbers. -/
def msgIndex (i : RoundIndex) : Fin 16 :=
  if i.toNat < 16 then Fin.ofNat 16 i.toNat
  else if i.toNat < 32 then Fin.ofNat 16 (5 * i.toNat + 1)
  else if i.toNat < 48 then Fin.ofNat 16 (3 * i.toNat + 5)
  else Fin.ofNat 16 (7 * i.toNat)

/-- Left rotation (R134), defined only for 1 ≤ n ≤ 31. -/
def rotl32 (x : Word) (n : Nat) : Option Word :=
  if 1 ≤ n ∧ n ≤ 31 then some ((x <<< n) ||| (x >>> (32 - n))) else none

/-- `T = f +32 A +32 K[i] +32 M[g(i)]` (R144); `x` is the message word. -/
def roundSum (aux : Word → Word → Word → Word) (i : RoundIndex) (x : Word) (q : Quad) : Word :=
  aux q.b q.c q.d + q.a + roundConst i + x

/-- The four writes of ROUND_STEP (R144) from the values before the round; none where the rotation is undefined (R134). -/
def roundQuad (aux : Word → Word → Word → Word) (i : RoundIndex) (x : Word) (q : Quad) : Option Quad :=
  match rotl32 (roundSum aux i x q) (shiftAmount i) with
  | some r => some ⟨q.d, q.b + r, q.b, q.c⟩
  | none => none

end Sys2Proof.Machine
end

