-- ==== Sys2Proof/Machine/Ops.lean ====
section
/-!
DEFINITION. The named operations the meanings share: the message buffer (spec/20_memory.md R50 to R53), the digest's
characters (R79, R170), the next-operation function (R182), taking a model fault (R223), and reset (R250).
-/

namespace Sys2Proof.Machine

/-- The byte `BUF[j]` (R51): none where no cell lists the index. -/
def Memory.byteAt (buf : Memory) (j : Nat) : Option Byte :=
  (buf.find? fun cell => cell.1 == j).map Prod.snd

/-- `len(BUF)`. -/
def Memory.len (buf : Memory) : Nat := buf.length

/-- The bytes without their indexes. -/
def Memory.bytes (buf : Memory) : List Byte := buf.map Prod.snd

/-- The cells of a byte sequence laid out from index `base` on. -/
def cellsFrom (base : Nat) : List Byte → Memory
  | [] => []
  | x :: xs => (base, x) :: cellsFrom (base + 1) xs

/-- A byte sequence as a buffer: indexed from 0 (R12). -/
def Memory.ofBytes (bytes : List Byte) : Memory := cellsFrom 0 bytes

/-- The canonical form: the indexes listed are 0, 1, …, len-1 in this order (R12, R50). An unlisted index reads as nothing. -/
def Memory.wf (buf : Memory) : Bool :=
  buf.map Prod.fst == List.range buf.length

/-- Appending bytes at index len(BUF) (R53). -/
def Memory.append (buf : Memory) (bytes : List Byte) : Memory :=
  buf ++ cellsFrom buf.len bytes

/-- `LE_n(v)`: byte j is `(v >> 8j) & 0xFF` (R12). -/
def leBytes : Nat → Nat → List Byte
  | 0, _ => []
  | n + 1, v => BitVec.ofNat 8 v :: leBytes n (v / 256)

/-- The value of little-endian bytes: the sum of byte t shifted left by 8t (R52). -/
def leValue : List Byte → Nat
  | [] => 0
  | x :: xs => x.toNat + 256 * leValue xs

/-- The bytes `BUF[j..j+n-1]`: none where one of them is not there. -/
def Memory.readBytes (buf : Memory) (j : Nat) : Nat → Option (List Byte)
  | 0 => some []
  | n + 1 =>
    match buf.byteAt j, Memory.readBytes buf (j + 1) n with
    | some x, some xs => some (x :: xs)
    | _, _ => none

/-- `MemRead(j, n)` (R52): none where it raises BufRange. -/
def Memory.read (buf : Memory) (j n : Nat) : Option Nat :=
  (buf.readBytes j n).map leValue

/-- `MemWrite(len(BUF), n, v)` (R53). -/
def Memory.write (buf : Memory) (n v : Nat) : Memory :=
  buf.append (leBytes n v)

/-- The 32-bit word at byte index `j` (R54), 0 where the read is out of range: the callers test the range first. -/
def Memory.wordAt (buf : Memory) (j : Nat) : Word :=
  BitVec.ofNat 32 ((buf.read j 4).getD 0)

/-- The first of the 16 reads of the block at `base` that is out of range, by its byte index (R120, R52). -/
def Memory.firstBadWord (buf : Memory) (base : Nat) : Option Nat :=
  ((List.range 16).map fun j => base + 4 * j).find? fun j => (buf.read j 4).isNone

/-- The running state as one value. -/
def Engine.readH (e : Engine) : Except CoreFault Quad := do
  let ha ← e.read .ha e.ha
  let hb ← e.read .hb e.hb
  let hc ← e.read .hc e.hc
  let hd ← e.read .hd e.hd
  .ok ⟨ha, hb, hc, hd⟩

/-- Writing the running state. -/
def Engine.withH (e : Engine) (q : Quad) : Engine :=
  { e with ha := .holds q.a, hb := .holds q.b, hc := .holds q.c, hd := .holds q.d }

/-- Writing the working registers. -/
def Engine.withW (e : Engine) (q : Quad) : Engine :=
  { e with a := .holds q.a, b := .holds q.b, c := .holds q.c, d := .holds q.d }

/-- Appending `v` as `n` little-endian bytes to a buffer that was read as `buf`. -/
def Engine.appendBuf (e : Engine) (buf : Memory) (n v : Nat) : Engine :=
  { e with buf := .holds (buf.write n v) }

/-- `BLK + 1` in a counter of `BLK_BITS` bits (R27, R160, log 9). -/
def blkSucc (p : Params) (k : Nat) : Nat :=
  match p.blkBits with
  | none => k + 1
  | some w => (k + 1) % 2 ^ w

/-- `hexchar(v)` (R79). -/
def hexChar (v : BitVec 4) : Byte :=
  if v.toNat ≤ 9 then BitVec.ofNat 8 (0x30 + v.toNat) else BitVec.ofNat 8 (0x61 + (v.toNat - 10))

/-- `LE_4(HA) ++ LE_4(HB) ++ LE_4(HC) ++ LE_4(HD)` (R170). -/
def digestBytes (q : Quad) : List Byte :=
  leBytes 4 q.a.toNat ++ leBytes 4 q.b.toNat ++ leBytes 4 q.c.toNat ++ leBytes 4 q.d.toNat

/-- Character `k` of the digest string (R170): the high nibble of byte k/2 where k is even, else the low one. -/
def digestChar (q : Quad) (k : Nat) : Byte :=
  let x := (digestBytes q).getD (k / 2) 0
  hexChar (if k % 2 = 0 then x.extractLsb' 4 4 else x.extractLsb' 0 4)

/-- The 32 characters SERIAL writes (R170). -/
def digestChars (q : Quad) : Vector Byte 32 :=
  Vector.ofFn fun k => digestChar q k.val

/-- The first unwritten character of `DOUT`. -/
def Engine.firstUnwrittenChar (e : Engine) : Option (Fin 32) :=
  (List.finRange 32).find? fun n => e.dout[n] == .unwritten

/-- The characters of `DOUT`, 0 for an unwritten one: the caller tests them first. -/
def Engine.doutChars (e : Engine) : Vector Byte 32 :=
  Vector.ofFn fun n =>
    match e.dout[n] with
    | .holds x => x
    | .unwritten => 0

/-- Where the padding rows of R182 go: APLEN when the length is 56 mod 64, else PADZ. -/
def nextPad (buf : Memory) : SeqWord :=
  if buf.len % 64 = 56 then enc 0x4#4 0#6 else enc 0x3#4 0#6

/-- The ROUND rows of R182. -/
def nextRound (i : RoundIndex) : SeqWord :=
  if i.toNat ≤ 62 then enc 0x6#4 (i + 1) else enc 0x7#4 0#6

/-- `next(op, st')` (R182), evaluated on the engine after op's writes. IDLE, DONE and the host commands have no row. -/
def nextSeq (op : Instr) (e : Engine) : Except CoreFault SeqWord :=
  match op with
  | .idle => .ok e.seq
  | .init => .ok (enc 0x2#4 0#6)
  | .padm => do
    let buf ← e.read .buf e.buf
    .ok (nextPad buf)
  | .padz => do
    let buf ← e.read .buf e.buf
    .ok (nextPad buf)
  | .aplen => .ok (enc 0x5#4 0#6)
  | .loadb => .ok (enc 0x6#4 0#6)
  | .roundf i => .ok (nextRound i)
  | .roundg i => .ok (nextRound i)
  | .roundh i => .ok (nextRound i)
  | .roundi i => .ok (nextRound i)
  | .accum => do
    let blk ← e.read .blk e.blk
    let buf ← e.read .buf e.buf
    .ok (if 64 * blk < buf.len then enc 0x5#4 0#6 else enc 0x8#4 0#6)
  | .serial => .ok (enc 0x9#4 0#6)
  | .done => .ok e.seq
  | .start _ => .ok e.seq
  | .rdstat => .ok e.seq
  | .rddig => .ok e.seq

/-- Adding a fault to the record, which is a set (R39, log 12). -/
def Engine.record (e : Engine) (f : CoreFault) : Engine :=
  { e with faults := if f ∈ e.faults then e.faults else e.faults ++ [f] }

/-- The engine the current move concerns. -/
def State.cur (s : State) : Option Engine := s.engines[s.sel]?

/-- Putting that engine back. -/
def State.setCur (s : State) (e : Engine) : State :=
  { s with engines := s.engines.set s.sel e }

/-- TAKING A MODEL FAULT (R223): the fault joins the record of the engine concerned and nothing else is written. The
engine's core steps then stop (R183, in Machine/Fetch.lean); there is no transfer of control (R226) and no return from
a fault but reset (R250). -/
def State.takeFault (s : State) (f : CoreFault) : Host.Outcome State Fault Refusal :=
  match s.cur with
  | none => .fault .noSuchEngine
  | some e => .next (s.setCur (e.record f))

/-- One micro-operation on the engine concerned: `perform`, then the write of `SEQ` (R183); a fault writes nothing but the
record (R223). -/
def microOp (op : Instr) (perform : Params → Engine → Except CoreFault Engine) (s : State) :
    Host.Outcome State Fault Refusal :=
  match s.cur with
  | none => .fault .noSuchEngine
  | some e =>
    match perform s.params e with
    | .error f => s.takeFault f
    | .ok e' =>
      match nextSeq op e' with
      | .error f => s.takeFault f
      | .ok w => .next (s.setCur { e' with seq := w })

/-- Reset of the engine concerned (R250): every piece of its state takes the value of R38. It is the way out of a faulted
engine. -/
def State.takeReset (s : State) : Host.Outcome State Fault Refusal :=
  match s.cur with
  | none => .fault .noSuchEngine
  | some _ => .next (s.setCur Engine.reset)

end Sys2Proof.Machine
end

