-- ==== Sys2Proof/Machine/Accumulator.lean ====
section
/-!
DEFINITION. The state accumulator: ACCUM (spec/43_accumulator.md).
-/

namespace Sys2Proof.Machine

/-- ACCUM's writes (R160), the reads in the pseudocode's order (log 10). -/
def performAccum (p : Params) (e : Engine) : Except CoreFault Engine := do
  let ha ← e.read .ha e.ha
  let a ← e.read .a e.a
  let hb ← e.read .hb e.hb
  let b ← e.read .b e.b
  let hc ← e.read .hc e.hc
  let c ← e.read .c e.c
  let hd ← e.read .hd e.hd
  let d ← e.read .d e.d
  let blk ← e.read .blk e.blk
  .ok { e.withH (Quad.add ⟨ha, hb, hc, hd⟩ ⟨a, b, c, d⟩) with blk := .holds (blkSucc p blk) }

/-- ACCUM (R160). -/
def execAccum (s : State) : Host.Outcome State Fault Refusal :=
  microOp .accum performAccum s

end Sys2Proof.Machine
end

