-- ==== Sys2Proof/Machine/Compression.lean ====
section
/-!
DEFINITION. The compression loop: ROUNDF, ROUNDG, ROUNDH, ROUNDI (spec/42_compression.md).
-/

namespace Sys2Proof.Machine

/-- ROUND_STEP(X, i) (R144): the reads in the pseudocode's order (log 10), then the rotation guard, then the four writes
together. -/
def roundStep (aux : Word → Word → Word → Word) (i : RoundIndex) (_ : Params) (e : Engine) :
    Except CoreFault Engine := do
  let b ← e.read .b e.b
  let c ← e.read .c e.c
  let d ← e.read .d e.d
  let a ← e.read .a e.a
  let x ← e.read (.m (msgIndex i)) e.m[msgIndex i]
  match roundQuad aux i x ⟨a, b, c, d⟩ with
  | none => .error (.badRotate e.seq)
  | some q => .ok (e.withW q)

/-- ROUNDF i (R140). -/
def execRoundf (i : RoundIndex) (s : State) : Host.Outcome State Fault Refusal :=
  microOp (.roundf i) (roundStep auxF i) s

/-- ROUNDG i (R141). -/
def execRoundg (i : RoundIndex) (s : State) : Host.Outcome State Fault Refusal :=
  microOp (.roundg i) (roundStep auxG i) s

/-- ROUNDH i (R142). -/
def execRoundh (i : RoundIndex) (s : State) : Host.Outcome State Fault Refusal :=
  microOp (.roundh i) (roundStep auxH i) s

/-- ROUNDI i (R143). -/
def execRoundi (i : RoundIndex) (s : State) : Host.Outcome State Fault Refusal :=
  microOp (.roundi i) (roundStep auxI i) s

end Sys2Proof.Machine
end

