-- ==== Sys2Proof/Machine/Deserializer.lean ====
section
/-!
DEFINITION. The little-endian word deserializer: LOADB (spec/41_deserializer.md).
-/

namespace Sys2Proof.Machine

/-- The 16 words of the block at byte index `base` (R120, R121). -/
def blockWords (buf : Memory) (base : Nat) : Vector (Reg Word) 16 :=
  Vector.ofFn fun j => .holds (buf.wordAt (base + 4 * j.val))

/-- LOADB's writes (R120). All operand reads are tested before the range of the block (R224). -/
def performLoadb (_ : Params) (e : Engine) : Except CoreFault Engine := do
  let blk ← e.read .blk e.blk
  let buf ← e.read .buf e.buf
  let h ← e.readH
  match buf.firstBadWord (64 * blk) with
  | some j => .error (.bufRange e.seq j)
  | none => .ok { e.withW h with m := blockWords buf (64 * blk) }

/-- LOADB (R120). -/
def execLoadb (s : State) : Host.Outcome State Fault Refusal :=
  microOp .loadb performLoadb s

end Sys2Proof.Machine
end

