-- ==== Sys2Proof/Machine/HostInterface.lean ====
section
/-!
DEFINITION. The host commands START, RDSTAT, RDDIG (spec/46_host_interface.md) and the moves a host line stands for
(R80, R81).
-/

namespace Sys2Proof.Machine

/-- START's writes (R200). -/
def Engine.load (e : Engine) (msg : List Byte) : Engine :=
  { e with buf := .holds (Memory.ofBytes msg), seq := enc 0x1#4 0#6 }

/-- START (R200): admission first, then the BUSY test (R224). A message that is not admitted has no step (R205, log 4). -/
def execStart (msg : List Byte) (s : State) : Host.Outcome State Fault Refusal :=
  match s.cur with
  | none => .fault .noSuchEngine
  | some e =>
    if s.params.admits msg.length then
      if busy e.seq then s.takeFault (.startWhileBusy e.seq 0x01)
      else .next (s.setCur (e.load msg))
    else .next s

/-- RDSTAT (R201). -/
def execRdstat (s : State) : Host.Outcome State Fault Refusal :=
  match s.cur with
  | none => .fault .noSuchEngine
  | some e => .next { s with reply := .status (statusOf e.seq) }

/-- RDDIG (R202); a character that holds no value is an unwritten read (R34). -/
def execRddig (s : State) : Host.Outcome State Fault Refusal :=
  match s.cur with
  | none => .fault .noSuchEngine
  | some e =>
    if isDone e.seq then
      match e.firstUnwrittenChar with
      | some n => s.takeFault (.unwrittenRead e.seq (.dout n))
      | none => .next { s with reply := .digest e.doutChars }
    else s.takeFault (.earlyDigestRead e.seq 0x03)

/-- The moves a line of a host program to engine `k` stands for (R80, R81: `DIGEST` is `START; WAIT; RDDIG`). -/
def hostLineMoves (k : Nat) : HostLine → List Event
  | .start msg => [.host k 0x01 msg]
  | .rdstat => [.host k 0x02 []]
  | .rddig => [.host k 0x03 []]
  | .wait => [.wait k]
  | .digest msg => [.host k 0x01 msg, .wait k, .host k 0x03 []]
  | .raw code payload => [.host k code payload]

/-- A host program as moves. -/
def hostProgramMoves (k : Nat) (lines : List HostLine) : List Event :=
  (lines.map (hostLineMoves k)).flatten

end Sys2Proof.Machine
end

