-- ==== Sys2Proof/Machine/Padding.lean ====
section
/-!
DEFINITION. The padding engine: INIT, PADM, PADZ, APLEN (spec/40_padding.md).
-/

namespace Sys2Proof.Machine

/-- INIT's writes (R100). -/
def performInit (_ : Params) (e : Engine) : Except CoreFault Engine := do
  let buf ← e.read .buf e.buf
  .ok { e.withH iv with ol := .holds (BitVec.ofNat 64 buf.len), blk := .holds 0 }

/-- INIT (R100). -/
def execInit (s : State) : Host.Outcome State Fault Refusal :=
  microOp .init performInit s

/-- PADM's write (R101): `MemWrite(len(BUF), 1, 0x80)`. -/
def performPadm (_ : Params) (e : Engine) : Except CoreFault Engine := do
  let buf ← e.read .buf e.buf
  .ok (e.appendBuf buf 1 0x80)

/-- PADM (R101). -/
def execPadm (s : State) : Host.Outcome State Fault Refusal :=
  microOp .padm performPadm s

/-- PADZ's write (R102): `MemWrite(len(BUF), 1, 0x00)`. -/
def performPadz (_ : Params) (e : Engine) : Except CoreFault Engine := do
  let buf ← e.read .buf e.buf
  .ok (e.appendBuf buf 1 0x00)

/-- PADZ (R102). -/
def execPadz (s : State) : Host.Outcome State Fault Refusal :=
  microOp .padz performPadz s

/-- `(OL * 8) mod 2^64` (R103), formed in 64 bits (R107). -/
def bitLength (ol : DWord) : DWord := ol * 8

/-- APLEN's write (R103): `MemWrite(len(BUF), 8, bitlen)`. -/
def performAplen (_ : Params) (e : Engine) : Except CoreFault Engine := do
  let ol ← e.read .ol e.ol
  let buf ← e.read .buf e.buf
  .ok (e.appendBuf buf 8 (bitLength ol).toNat)

/-- APLEN (R103). -/
def execAplen (s : State) : Host.Outcome State Fault Refusal :=
  microOp .aplen performAplen s

end Sys2Proof.Machine
end

