-- ==== Sys2Proof/Machine/Sequencer.lean ====
section
/-!
DEFINITION. The waiting states of the sequencer: IDLE and DONE (spec/45_sequencer.md). The next-operation function is
`nextSeq` in Machine/Ops.lean, the core step in Machine/Fetch.lean.
-/

namespace Sys2Proof.Machine

/-- No core step (R183's NoStep): the engine stays as it is (log 3). -/
def noStep (s : State) : Host.Outcome State Fault Refusal :=
  match s.cur with
  | none => .fault .noSuchEngine
  | some _ => .next s

/-- IDLE (R180). -/
def execIdle (s : State) : Host.Outcome State Fault Refusal := noStep s

/-- DONE (R181). -/
def execDone (s : State) : Host.Outcome State Fault Refusal := noStep s

end Sys2Proof.Machine
end

