-- ==== Sys2Proof/Machine/Serializer.lean ====
section
/-!
DEFINITION. The hex serializer: SERIAL (spec/44_serializer.md).
-/

namespace Sys2Proof.Machine

/-- SERIAL's writes (R170). -/
def performSerial (_ : Params) (e : Engine) : Except CoreFault Engine := do
  let h ← e.readH
  .ok { e with dout := (digestChars h).map .holds }

/-- SERIAL (R170). -/
def execSerial (s : State) : Host.Outcome State Fault Refusal :=
  microOp .serial performSerial s

end Sys2Proof.Machine
end

