-- ==== Sys2Proof/Machine/Dispatch.lean ====
section
/-!
DEFINITION. One arm per instruction: `perform(op, st)` of spec/45_sequencer.md rule R183 with its write of `SEQ`, and the
host commands. The test of the fault record and the decoding come before it, in Machine/Fetch.lean (log 21).
-/

namespace Sys2Proof.Machine

def exec (i : Instr) (s : State) : Host.Outcome State Fault Refusal :=
  match i with
  | .idle => Sys2Proof.Machine.execIdle s
  | .init => Sys2Proof.Machine.execInit s
  | .padm => Sys2Proof.Machine.execPadm s
  | .padz => Sys2Proof.Machine.execPadz s
  | .aplen => Sys2Proof.Machine.execAplen s
  | .loadb => Sys2Proof.Machine.execLoadb s
  | .roundf ri => Sys2Proof.Machine.execRoundf ri s
  | .roundg ri => Sys2Proof.Machine.execRoundg ri s
  | .roundh ri => Sys2Proof.Machine.execRoundh ri s
  | .roundi ri => Sys2Proof.Machine.execRoundi ri s
  | .accum => Sys2Proof.Machine.execAccum s
  | .serial => Sys2Proof.Machine.execSerial s
  | .done => Sys2Proof.Machine.execDone s
  | .start msg => Sys2Proof.Machine.execStart msg s
  | .rdstat => Sys2Proof.Machine.execRdstat s
  | .rddig => Sys2Proof.Machine.execRddig s

end Sys2Proof.Machine
end

