-- ==== Sys2Proof/Machine/Fetch.lean ====
section
/-!
DEFINITION. What a step runs: the next move of the agenda (spec/46_host_interface.md rule R206), and for it the fault-record
test and the decoding of R183 and R207. The core fetches nothing from memory (R66): its "fetch" is the decoding of `SEQ`.
-/

namespace Sys2Proof.Machine

/-- What is to be done with the state given: run an instruction, or nothing more (the move has no instruction). -/
inductive Fetched where
  | run (i : Instr) (s : State)
  | settled (o : Host.Outcome State Fault Refusal)

/-- The engine a move is addressed to. -/
def Event.target : Event → Nat
  | .core k => k
  | .host k _ _ => k
  | .wait k => k
  | .reset k => k

/-- The engine after the one that acted last, in turn (log 5). -/
def State.turn (s : State) : Nat :=
  if s.sel + 1 < s.engines.length then s.sel + 1 else 0

/-- The engine the next move is addressed to: the move's own, or the one next in turn. -/
def State.mover (s : State) : Nat :=
  match s.agenda with
  | [] => s.turn
  | ev :: _ => ev.target

/-- The core step of the engine concerned (R183): a faulted engine stays put, an illegal `SEQ` faults. -/
def fetchCore (s : State) : Fetched :=
  match s.cur with
  | none => .settled (.fault .noSuchEngine)
  | some e =>
    if e.faults = [] then
      match decodeSeq e.seq with
      | .ok i => .run i s
      | .error _ => .settled (s.takeFault (.illegalSeq e.seq))
    else .settled (.next s)

/-- A host command to the engine concerned (R78, R207). -/
def fetchHost (code : Byte) (payload : List Byte) (s : State) : Fetched :=
  match s.cur with
  | none => .settled (.fault .noSuchEngine)
  | some e =>
    match decodeHost code payload with
    | .ok i => .run i s
    | .error _ => .settled (s.takeFault (.illegalHostCmd e.seq code))

/-- The state a move acts on: the move is taken off the agenda and its engine selected. -/
def State.take (s : State) (k : Nat) (rest : List Event) : State :=
  { s with sel := k, agenda := rest }

/-- The same for a host command, whose reply is not there yet (log 6). -/
def State.takeHost (s : State) (k : Nat) (rest : List Event) : State :=
  { s with sel := k, agenda := rest, reply := .nothing }

/-- One core step for each engine, in index order: what stands between two polls of a WAIT, so that no engine whose core
step is enabled is passed over while the host waits (R187, D26, log 17). -/
def State.coreRound (s : State) : List Event := (List.range s.engines.length).map .core

/-- The state WAIT acts on: while `STATUS.DONE` = 0 the wait stays, behind a core step of each engine (R81, R187, log 17). -/
def State.takeWait (s : State) (k : Nat) (rest : List Event) : State :=
  match s.engines[k]? with
  | none => s.takeHost k rest
  | some e => if isDone e.seq then s.takeHost k rest else s.takeHost k (s.coreRound ++ .wait k :: rest)

/-- The next move. With nothing on the agenda the engines take core steps in turn. -/
def fetch (s : State) : Fetched :=
  match s.agenda with
  | [] => fetchCore (s.take s.turn [])
  | .core k :: rest => fetchCore (s.take k rest)
  | .host k code payload :: rest => fetchHost code payload (s.takeHost k rest)
  | .wait k :: rest => fetchHost 0x02 [] (s.takeWait k rest)
  | .reset k :: rest => .settled (s.take k rest).takeReset

end Sys2Proof.Machine
end

