-- ==== Sys2Proof/Machine/Step.lean ====
section
/-!
DEFINITION. One step of the machine, and how an instruction is placed to be the next one.
-/

namespace Sys2Proof.Machine

/-- One step: a core step, a host command or a reset, each atomic (R6, R183, R206). -/
def step (s : State) : Host.Outcome State Fault Refusal :=
  match fetch s with
  | .run i s' => exec i s'
  | .settled o => o

/-- The engine concerned with `SEQ` = `w` and an empty fault record, which a core step needs (R183). -/
def Engine.withSeq (e : Engine) (w : SeqWord) : Engine := { e with seq := w, faults := [] }

/-- A table word placed so that the very next step runs it (log 15): a row of 16 bits becomes `SEQ` of the selected engine
and its core step the next move; a row of 8 bits becomes the next host command, with an empty payload. -/
def State.withFetchWord (s : State) (nbits w : Nat) : State :=
  match nbits with
  | 16 =>
    match s.cur with
    | none => s
    | some e => { s.setCur (e.withSeq (BitVec.ofNat 16 w)) with agenda := .core s.sel :: s.agenda }
  | 8 => { s with agenda := .host s.sel (BitVec.ofNat 8 w) [] :: s.agenda }
  | _ => s

end Sys2Proof.Machine
end

