-- ==== Sys2Proof/Machine/Digest.lean ====
section
/-!
DEFINITION. The digest as a function of the message alone (spec rules R104 to R106, R121, R144, R161, R170, R185), written
over byte lists and independent of the sequencer: what claims about a whole run compare the machine with.
-/

namespace Sys2Proof.Machine

/-- z = (55 − L) mod 64, the number of zero bytes (R104); the remainder is the non-negative one (R11). -/
def zeroCount (len : Nat) : Nat := ((55 - (len : Int)) % 64).toNat

/-- nb = floor((L + 8) / 64) + 1 (R105). -/
def blockCount (len : Nat) : Nat := (len + 8) / 64 + 1

/-- N(L) = 4 + z + 66·nb, the core steps of a run (R185). -/
def stepCount (len : Nat) : Nat := 4 + zeroCount len + 66 * blockCount len

/-- The padded buffer of R105. -/
def padMessage (msg : List Byte) : List Byte :=
  msg ++ [0x80] ++ List.replicate (zeroCount msg.length) 0x00 ++ leBytes 8 (msg.length * 8 % 2 ^ 64)

/-- Word j of block k of a byte sequence (R121). -/
def blockWord (bytes : List Byte) (k : Nat) (j : Fin 16) : Word :=
  let at4 := 64 * k + 4 * j.val
  (bytes.getD (at4 + 3) 0 ++ bytes.getD (at4 + 2) 0) ++ (bytes.getD (at4 + 1) 0 ++ bytes.getD at4 0)

/-- The auxiliary function of round i by its quarter (R135 to R138). -/
def auxOf (i : RoundIndex) : Word → Word → Word → Word :=
  if i.toNat < 16 then auxF else if i.toNat < 32 then auxG else if i.toNat < 48 then auxH else auxI

/-- Round i on the working words (R144), with the rotation as a rotation. -/
def roundOn (words : Fin 16 → Word) (q : Quad) (i : RoundIndex) : Quad :=
  let t := auxOf i q.b q.c q.d + q.a + roundConst i + words (msgIndex i)
  ⟨q.d, q.b + t.rotateLeft (shiftAmount i), q.b, q.c⟩

/-- The round indexes 0, 1, …, 63 in order (R130). -/
def roundIndexes : List RoundIndex := (List.range 64).map (BitVec.ofNat 6)

/-- The 64 rounds of a block (R130, R161). -/
def compress (words : Fin 16 → Word) (q : Quad) : Quad :=
  roundIndexes.foldl (roundOn words) q

/-- H_{k+1} = H_k +32 C(H_k, block k) (R161). -/
def chain (bytes : List Byte) (h : Quad) (k : Nat) : Quad :=
  h.add (compress (blockWord bytes k) h)

/-- The running state after `n` blocks, from IV (R161). -/
def runningState (bytes : List Byte) (n : Nat) : Quad :=
  (List.range n).foldl (chain bytes) iv

/-- The 32 characters of the digest of a message (R203). -/
def md5 (msg : List Byte) : Vector Byte 32 :=
  digestChars (runningState (padMessage msg) (blockCount msg.length))

/-- The micro-operations of one block (R185). -/
def blockOps : List Instr :=
  [.loadb] ++ roundIndexes.map roundInstr ++ [.accum]

/-- The micro-operations of a run for a message of length `len` (R185). -/
def runOps (len : Nat) : List Instr :=
  [.init, .padm] ++ List.replicate (zeroCount len) .padz ++ [.aplen]
    ++ (List.replicate (blockCount len) blockOps).flatten ++ [.serial]

end Sys2Proof.Machine
end

