-- ==== Sys2Proof/Safety.lean ====
section
/-!
DEFINITION. What counts as a safe run, in the terms claims use: the end of a run (spec/45_sequencer.md rule R186), the
host's duties (spec/46_host_interface.md rule R204), and the invariant of a run (R21, R58, R105, R161, R254).
-/

namespace Sys2Proof.Machine

/-- The end of a run (R186): `SEQ` = 0x9000 and the fault record is empty. -/
def Engine.ended (e : Engine) : Bool := e.seq == enc 0x9#4 0#6 && e.faults.isEmpty

/-- A faulted engine (R186). -/
def Engine.faulted (e : Engine) : Bool := !e.faults.isEmpty

/-- A model fault only a host that breaks its duty raises (R222, codes 5 to 7). -/
def CoreFault.byHost : CoreFault → Bool
  | .illegalSeq _ => false
  | .badRotate _ => false
  | .bufRange _ _ => false
  | .unwrittenRead _ _ => false
  | .startWhileBusy _ _ => true
  | .earlyDigestRead _ _ => true
  | .illegalHostCmd _ _ => true

/-- The number of a fault (R222). -/
def CoreFault.code : CoreFault → Nat
  | .illegalSeq _ => 1
  | .badRotate _ => 2
  | .bufRange _ _ => 3
  | .unwrittenRead _ _ => 4
  | .startWhileBusy _ _ => 5
  | .earlyDigestRead _ _ => 6
  | .illegalHostCmd _ _ => 7

/-- The duties of R204 for the next move: START only while `STATUS.BUSY` = 0, RDDIG only while `STATUS.DONE` = 1, and no
reserved code. A move that names no engine breaks no duty. -/
def State.dutyKept (s : State) : Bool :=
  match s.agenda with
  | .host k code _ :: _ =>
    match s.engines[k]? with
    | none => true
    | some e =>
      (code == 0x01 && !busy e.seq) || code == 0x02 || (code == 0x03 && isDone e.seq)
  | _ => true

/-- The register has been written since reset (R34). -/
def Reg.written {α : Type} : Reg α → Bool
  | .holds _ => true
  | .unwritten => false

/-- A round's registers in the pseudocode's order (R144, log 10). -/
def Engine.roundOperands (e : Engine) (i : RoundIndex) : List (RegName × Bool) :=
  [(.b, e.b.written), (.c, e.c.written), (.d, e.d.written), (.a, e.a.written),
    (.m (msgIndex i), e.m[msgIndex i].written)]

/-- The registers a micro-operation reads, in the order its rule reads them (R224, log 10), each with whether it holds a
value. The host commands and the waiting states read none this way. -/
def Engine.operands (e : Engine) : Instr → List (RegName × Bool)
  | .idle => []
  | .init => [(.buf, e.buf.written)]
  | .padm => [(.buf, e.buf.written)]
  | .padz => [(.buf, e.buf.written)]
  | .aplen => [(.ol, e.ol.written), (.buf, e.buf.written)]
  | .loadb =>
    [(.blk, e.blk.written), (.buf, e.buf.written), (.ha, e.ha.written), (.hb, e.hb.written), (.hc, e.hc.written),
      (.hd, e.hd.written)]
  | .roundf i => e.roundOperands i
  | .roundg i => e.roundOperands i
  | .roundh i => e.roundOperands i
  | .roundi i => e.roundOperands i
  | .accum =>
    [(.ha, e.ha.written), (.a, e.a.written), (.hb, e.hb.written), (.b, e.b.written), (.hc, e.hc.written),
      (.c, e.c.written), (.hd, e.hd.written), (.d, e.d.written), (.blk, e.blk.written), (.buf, e.buf.written)]
  | .serial => [(.ha, e.ha.written), (.hb, e.hb.written), (.hc, e.hc.written), (.hd, e.hd.written)]
  | .done => []
  | .start _ => []
  | .rdstat => []
  | .rddig => []

/-- The engine after a round with the sum `t` and the rotation `n`, its working words before it `q` (R144). -/
def Engine.afterRound (e : Engine) (q : Quad) (t : Word) (n : Nat) (next : SeqWord) : Engine :=
  { e with a := .holds q.d, b := .holds (q.b + t.rotateLeft n), c := .holds q.b, d := .holds q.c, seq := next }

/-- `HA..HD` hold `q`. -/
def Engine.HoldsH (e : Engine) (q : Quad) : Prop :=
  e.ha = .holds q.a ∧ e.hb = .holds q.b ∧ e.hc = .holds q.c ∧ e.hd = .holds q.d

/-- `A..D` hold `q`. -/
def Engine.HoldsW (e : Engine) (q : Quad) : Prop :=
  e.a = .holds q.a ∧ e.b = .holds q.b ∧ e.c = .holds q.c ∧ e.d = .holds q.d

/-- `M[0..15]` hold these words. -/
def Engine.HoldsM (e : Engine) (words : Fin 16 → Word) : Prop :=
  ∀ j : Fin 16, e.m[j] = .holds (words j)

/-- `DOUT[0..31]` holds these characters. -/
def Engine.HoldsDout (e : Engine) (chars : Vector Byte 32) : Prop :=
  e.dout = chars.map .holds

/-- Every register of R20 but `SEQ` is unwritten (R38). -/
def Engine.AllUnwritten (e : Engine) : Prop :=
  e.buf = .unwritten ∧ e.ol = .unwritten
  ∧ e.ha = .unwritten ∧ e.hb = .unwritten ∧ e.hc = .unwritten ∧ e.hd = .unwritten
  ∧ e.a = .unwritten ∧ e.b = .unwritten ∧ e.c = .unwritten ∧ e.d = .unwritten
  ∧ (∀ j : Fin 16, e.m[j] = .unwritten) ∧ e.blk = .unwritten ∧ ∀ n : Fin 32, e.dout[n] = .unwritten

/-- The working words after the first `n` rounds of block `k` (R144, R161). -/
def afterRounds (msg : List Byte) (k n : Nat) : Quad :=
  (roundIndexes.take n).foldl (roundOn (blockWord (padMessage msg) k)) (runningState (padMessage msg) k)

/-- While the message `msg` is being padded, `zeros` zero bytes in (R100 to R102). -/
def Engine.Padding (e : Engine) (msg : List Byte) (zeros : Nat) : Prop :=
  e.buf = .holds (Memory.ofBytes (msg ++ [0x80] ++ List.replicate zeros 0x00))
  ∧ e.ol = .holds (BitVec.ofNat 64 msg.length) ∧ e.HoldsH iv ∧ e.blk = .holds 0

/-- After the padding, with `k` blocks accumulated (R105, R161). -/
def Engine.Hashing (e : Engine) (msg : List Byte) (k : Nat) : Prop :=
  e.buf = .holds (Memory.ofBytes (padMessage msg)) ∧ e.ol = .holds (BitVec.ofNat 64 msg.length)
  ∧ e.HoldsH (runningState (padMessage msg) k) ∧ e.blk = .holds k

/-- In the rounds of block `k`, `n` of them done (R130, R144). -/
def Engine.InRounds (e : Engine) (msg : List Byte) (k n : Nat) : Prop :=
  k < blockCount msg.length ∧ e.Hashing msg k ∧ e.HoldsM (blockWord (padMessage msg) k)
  ∧ e.HoldsW (afterRounds msg k n)

/-- What an engine computing the digest of `msg` holds when its next micro-operation is `op` (R185, R254). -/
def Engine.At (e : Engine) (msg : List Byte) (op : Instr) : Prop :=
  match op with
  | .idle => False
  | .init => e.buf = .holds (Memory.ofBytes msg)
  | .padm =>
    e.buf = .holds (Memory.ofBytes msg) ∧ e.ol = .holds (BitVec.ofNat 64 msg.length) ∧ e.HoldsH iv ∧ e.blk = .holds 0
  | .padz => ∃ zeros, zeros < zeroCount msg.length ∧ e.Padding msg zeros
  | .aplen => e.Padding msg (zeroCount msg.length)
  | .loadb => ∃ k, k < blockCount msg.length ∧ e.Hashing msg k
  | .roundf i => ∃ k, e.InRounds msg k i.toNat
  | .roundg i => ∃ k, e.InRounds msg k i.toNat
  | .roundh i => ∃ k, e.InRounds msg k i.toNat
  | .roundi i => ∃ k, e.InRounds msg k i.toNat
  | .accum => ∃ k, e.InRounds msg k 64
  | .serial => e.Hashing msg (blockCount msg.length)
  | .done => e.Hashing msg (blockCount msg.length) ∧ e.HoldsDout (md5 msg)
  | .start _ => False
  | .rdstat => False
  | .rddig => False

/-- The invariant of one engine: its `SEQ` is legal (R21), its fault record is a set (R39), and it is in IDLE with nothing
written since reset (R38, R180) or computing the digest of an admitted message. -/
def Engine.Inv (p : Params) (e : Engine) : Prop :=
  e.faults.Nodup ∧ ∃ op, decodeSeq e.seq = .ok op ∧
    ((op = .idle ∧ e.AllUnwritten) ∨ ∃ msg, p.admits msg.length ∧ e.At msg op)

/-- The invariant of the machine: the parameters fit (R9), there is an engine and the selection names one, and every engine
has its invariant. -/
def State.Inv (s : State) : Prop :=
  s.params.fits ∧ s.sel < s.engines.length ∧ ∀ e ∈ s.engines, e.Inv s.params

end Sys2Proof.Machine
end

