-- ==== Sys2Proof/Certificates/Slice0/Obligations.lean ====
section
/-!
DEFINITION. The statements for the provers. Each docstring names the rule of spec/ it formalises, or the log entry of a
clause that is the model's own choice.
-/

open Sys2Proof Sys2Proof.Machine

/-! ## Encoding -/

/-- R71, R72, R75, R78: decoding the encoding of a well-formed instruction gives it back, whatever its operand. -/
def Obligations.EncodedInstructionDecodesToItself : Prop :=
  ∀ i : Instr, i.wellFormed = true → decode (encode i) = .ok i

/-- R75, R78: what the decoder accepts is the encoding of a well-formed instruction. A payload sent with RDSTAT or RDDIG is
not part of the encoding (the model's choice, log 14). -/
def Obligations.AcceptedWordIsTheEncodingOfItsInstruction : Prop :=
  (∀ (w : SeqWord) (i : Instr), decodeSeq w = .ok i → i.wellFormed = true ∧ encode i = .seq w) ∧
  (∀ (code : Byte) (payload : List Byte) (i : Instr), decodeHost code payload = .ok i →
    i.wellFormed = true ∧ encode i = .host code (if code = 0x01#8 then payload else []))

/-- R76, R183: which `SEQ` values are illegal, that a core step on one records IllegalSeq and writes nothing else, and that
no step writes one. That with nothing on the agenda the engine next in turn takes the core step is the model's choice
(log 5). -/
def Obligations.IllegalControlWordsFaultAndAreNeverWritten : Prop :=
  (∀ w : SeqWord, decodeSeq w = .error (.illegalSeq w) ↔
    (10 ≤ (w.extractLsb' 12 4).toNat ∨ w.extractLsb' 6 6 ≠ 0#6 ∨
      (w.extractLsb' 0 6 ≠ 0#6 ∧ w.extractLsb' 12 4 ≠ 6#4))) ∧
  (∀ (s : State) (k : Nat) (rest : List Event) (e : Engine),
    (s.agenda = .core k :: rest ∨ (s.agenda = [] ∧ k = s.turn ∧ rest = [])) → s.engines[k]? = some e →
    e.faults = [] → decodeSeq e.seq = .error (.illegalSeq e.seq) →
    step s = .next ((s.take k rest).setCur { e with faults := [.illegalSeq e.seq] })) ∧
  (∀ (s t : State) (k : Nat) (e e' : Engine), step s = .next t → s.engines[k]? = some e → t.engines[k]? = some e' →
    e'.seq = e.seq ∨ ∃ op, decodeSeq e'.seq = .ok op)

/-- R72, R75, R78 on words written out from the tables (spec 95 section 2.7). -/
def Obligations.SampleWordsDecodeAsTabled : Prop :=
  decodeSeq 0x0000#16 = .ok .idle ∧ decodeSeq 0x1000#16 = .ok .init ∧ decodeSeq 0x3000#16 = .ok .padz ∧
  decodeSeq 0x600F#16 = .ok (.roundf 15#6) ∧ decodeSeq 0x6010#16 = .ok (.roundg 16#6) ∧
  decodeSeq 0x6020#16 = .ok (.roundh 32#6) ∧ decodeSeq 0x603F#16 = .ok (.roundi 63#6) ∧
  decodeSeq 0x9000#16 = .ok .done ∧ decodeSeq 0xA000#16 = .error (.illegalSeq 0xA000#16) ∧
  decodeSeq 0x1001#16 = .error (.illegalSeq 0x1001#16) ∧ decodeSeq 0x6040#16 = .error (.illegalSeq 0x6040#16) ∧
  decodeHost 0x01#8 [0x61#8] = .ok (.start [0x61#8]) ∧ decodeHost 0x03#8 [] = .ok .rddig ∧
  decodeHost 0x04#8 [] = .error (.illegalHostCmd 0x04#8)

/-! ## The step -/

/-- R183: a core step of an engine without faults runs the micro-operation its `SEQ` decodes to. With nothing on the agenda
the engine next in turn takes it (the model's choice, log 5). -/
def Obligations.CoreStepRunsTheDecodedMicroOperation : Prop :=
  ∀ (s : State) (k : Nat) (rest : List Event) (e : Engine) (i : Instr),
    (s.agenda = .core k :: rest ∨ (s.agenda = [] ∧ k = s.turn ∧ rest = [])) →
    s.engines[k]? = some e → e.faults = [] → decodeSeq e.seq = .ok i → step s = exec i (s.take k rest)

/-- R78, R81: a host command runs the instruction its code decodes to; WAIT runs RDSTAT. That a faulted engine answers every
host command by its pseudocode is read from R227 and R229 (DEDUCED, log 16). That a WAIT that reads DONE = 0 stays, behind
one core step of each engine in index order, is the model's choice (log 17), and so is that a payload sent with RDSTAT or
RDDIG is ignored (log 14). -/
def Obligations.HostMoveRunsTheDecodedCommand : Prop :=
  ∀ (s : State) (k : Nat) (rest : List Event) (e : Engine), s.engines[k]? = some e →
    (∀ (code : Byte) (payload : List Byte) (i : Instr), s.agenda = .host k code payload :: rest →
      decodeHost code payload = .ok i → step s = exec i (s.takeHost k rest)) ∧
    (s.agenda = .wait k :: rest →
      step s = exec .rdstat
        (s.takeHost k (if e.seq.extractLsb' 12 4 = 9#4 then rest
          else (List.range s.engines.length).map .core ++ .wait k :: rest)))

/-- R207. -/
def Obligations.ReservedHostCodeRaisesIllegalHostCmd : Prop :=
  ∀ (s : State) (k : Nat) (code : Byte) (payload : List Byte) (rest : List Event) (e : Engine),
    s.agenda = .host k code payload :: rest → s.engines[k]? = some e →
    code ≠ 0x01#8 → code ≠ 0x02#8 → code ≠ 0x03#8 →
    step s = .next ((s.takeHost k rest).setCur (e.record (.illegalHostCmd e.seq code)))

/-- R183, R223: a faulted engine takes no core step. That the move passes and leaves the engine as it is, is log 3; that
with nothing on the agenda the move is that of the engine next in turn, is log 5. -/
def Obligations.FaultedEngineTakesNoCoreStep : Prop :=
  ∀ (s : State) (k : Nat) (rest : List Event) (e : Engine),
    (s.agenda = .core k :: rest ∨ (s.agenda = [] ∧ k = s.turn ∧ rest = [])) → s.engines[k]? = some e →
    e.faults ≠ [] → step s = .next (s.take k rest)

/-- R223, R250: the reset of an engine empties its fault record, and no other step takes a fault out of it. -/
def Obligations.OnlyResetClearsTheFaultRecord : Prop :=
  ∀ (s t : State) (k : Nat) (e e' : Engine), step s = .next t → s.engines[k]? = some e → t.engines[k]? = some e' →
    (∀ rest, s.agenda = .reset k :: rest → e'.faults = []) ∧
    ((∀ rest, s.agenda ≠ .reset k :: rest) → ∀ f ∈ e.faults, f ∈ e'.faults)

/-- R38, R250: reset of an engine gives every piece of its state the value of the table. That it touches no other engine and
no parameter is read from R250's "effect on one instance" and R40 (DEDUCED, log 22). -/
def Obligations.ResetGivesTheResetValues : Prop :=
  ∀ (s : State) (k : Nat) (rest : List Event) (e : Engine), s.agenda = .reset k :: rest → s.engines[k]? = some e →
    ∃ t e', step s = .next t ∧ t.engines[k]? = some e' ∧
      e'.seq = 0x0000#16 ∧ e'.buf = .unwritten ∧ e'.ol = .unwritten ∧
      e'.ha = .unwritten ∧ e'.hb = .unwritten ∧ e'.hc = .unwritten ∧ e'.hd = .unwritten ∧
      e'.a = .unwritten ∧ e'.b = .unwritten ∧ e'.c = .unwritten ∧ e'.d = .unwritten ∧
      (∀ j : Fin 16, e'.m[j] = .unwritten) ∧ e'.blk = .unwritten ∧ (∀ n : Fin 32, e'.dout[n] = .unwritten) ∧
      e'.faults = [] ∧ statusOf e'.seq = 0x00#8 ∧
      (∀ j, j ≠ k → t.engines[j]? = s.engines[j]?) ∧ t.params = s.params

/-- R9, R38, R40: after power-on with any parameters and number of instances, every engine is as R38 says, register by
register. -/
def Obligations.PowerOnLeavesEveryEngineInReset : Prop :=
  ∀ (p : Params) (n k : Nat), k < n →
    ∃ e, (State.powerOn p n).engines[k]? = some e ∧ e.seq = 0x0000#16 ∧ statusOf e.seq = 0x00#8 ∧ e.faults = [] ∧
      e.buf = .unwritten ∧ e.ol = .unwritten ∧
      e.ha = .unwritten ∧ e.hb = .unwritten ∧ e.hc = .unwritten ∧ e.hd = .unwritten ∧
      e.a = .unwritten ∧ e.b = .unwritten ∧ e.c = .unwritten ∧ e.d = .unwritten ∧
      (∀ j : Fin 16, e.m[j] = .unwritten) ∧ e.blk = .unwritten ∧ (∀ i : Fin 32, e.dout[i] = .unwritten)

/-! ## The micro-operations -/

/-- R100: INIT captures the length and loads the initial state, with its encoding and its one fault. -/
def Obligations.InitCapturesLengthAndLoadsTheInitialState : Prop :=
  decodeSeq 0x1000#16 = .ok .init ∧
  ∀ (s : State) (e : Engine), s.cur = some e →
    (∀ buf, e.buf = .holds buf → exec .init s = .next (s.setCur { e with
      ol := .holds (BitVec.ofNat 64 buf.len), ha := .holds 0x67452301#32, hb := .holds 0xEFCDAB89#32,
      hc := .holds 0x98BADCFE#32, hd := .holds 0x10325476#32, blk := .holds 0, seq := 0x2000#16 })) ∧
    (e.buf = .unwritten → exec .init s = .next (s.setCur (e.record (.unwrittenRead e.seq .buf))))

/-- R101: PADM appends the marker byte; what follows is R182's. -/
def Obligations.PadmAppendsTheMarkerByte : Prop :=
  decodeSeq 0x2000#16 = .ok .padm ∧
  ∀ (s : State) (e : Engine) (buf : Memory), s.cur = some e → e.buf = .holds buf →
    exec .padm s = .next (s.setCur { e with
      buf := .holds (buf.append [0x80#8]),
      seq := if (buf.len + 1) % 64 = 56 then 0x4000#16 else 0x3000#16 })

/-- R102: PADZ appends one zero byte; what follows is R182's. -/
def Obligations.PadzAppendsOneZeroByte : Prop :=
  decodeSeq 0x3000#16 = .ok .padz ∧
  ∀ (s : State) (e : Engine) (buf : Memory), s.cur = some e → e.buf = .holds buf →
    exec .padz s = .next (s.setCur { e with
      buf := .holds (buf.append [0x00#8]),
      seq := if (buf.len + 1) % 64 = 56 then 0x4000#16 else 0x3000#16 })

/-- R103, R107: APLEN appends the eight bytes of (OL · 8) mod 2^64, byte t being bits 8t+7 : 8t. -/
def Obligations.AplenAppendsTheBitLength : Prop :=
  decodeSeq 0x4000#16 = .ok .aplen ∧
  ∀ (s : State) (e : Engine) (buf : Memory) (ol : DWord), s.cur = some e → e.buf = .holds buf → e.ol = .holds ol →
    ∃ tail : List Byte, tail.length = 8 ∧
      (∀ t, t < 8 → tail[t]? = some (BitVec.ofNat 8 (ol.toNat * 8 % 2 ^ 64 / 256 ^ t))) ∧
      exec .aplen s = .next (s.setCur { e with buf := .holds (buf.append tail), seq := 0x5000#16 })

/-- R120, R121: LOADB loads the block as 16 little-endian words and copies the running state, where the 64 bytes of the
block are there to be read. -/
def Obligations.LoadbLoadsTheBlockLittleEndian : Prop :=
  decodeSeq 0x5000#16 = .ok .loadb ∧
  ∀ (s : State) (e : Engine) (buf : Memory) (blk : Nat) (q : Quad) (x : Nat → Byte), s.cur = some e →
    e.buf = .holds buf → e.blk = .holds blk → e.HoldsH q → (∀ t, t < 64 → buf.byteAt (64 * blk + t) = some (x t)) →
    ∃ m : Vector (Reg Word) 16,
      (∀ j : Fin 16, m[j] = .holds
        ((x (4 * j.val + 3) ++ x (4 * j.val + 2)) ++ (x (4 * j.val + 1) ++ x (4 * j.val)))) ∧
      exec .loadb s = .next (s.setCur { e with
        m := m, a := .holds q.a, b := .holds q.b, c := .holds q.c, d := .holds q.d, seq := 0x6000#16 })

/-- R52, R120, R224: with every operand written, LOADB of a block that reaches past the end of `BUF` records BufRange at
its first word out of range (the index recorded is the model's choice, log 11) and writes nothing else. -/
def Obligations.LoadbPastTheEndRaisesBufRange : Prop :=
  ∀ (s : State) (e : Engine) (buf : Memory) (blk : Nat) (q : Quad), s.cur = some e →
    e.buf = .holds buf → e.blk = .holds blk → e.HoldsH q → buf.wf = true → buf.len < 64 * blk + 64 →
    ∃ j, j < 16 ∧ buf.len < 64 * blk + 4 * j + 4 ∧ (∀ j', j' < j → 64 * blk + 4 * j' + 4 ≤ buf.len) ∧
      exec .loadb s = .next (s.setCur (e.record (.bufRange e.seq (64 * blk + 4 * j))))

/-- R139 to R144: a round computes its four new working words from the old ones and writes them together, for every
family, round index and message word; what follows is R182's. The constants `roundConst i` are R132's table
(RoundConstantsAreTheTable), the rotation amounts `shiftAmount i` R131's (RotationAmountsFollowTheQuarters). -/
def Obligations.RoundsUpdateTheWorkingWordsTogether : Prop :=
  ∀ (s : State) (e : Engine) (q : Quad) (i : RoundIndex) (g : Fin 16) (x : Word), s.cur = some e → e.HoldsW q →
    e.m[g] = .holds x →
    (i.toNat < 16 → g.val = i.toNat →
      exec (.roundf i) s = .next (s.setCur (e.afterRound q
        (((q.b &&& q.c) ||| (~~~q.b &&& q.d)) + q.a + roundConst i + x) (shiftAmount i)
        (BitVec.ofNat 16 (0x6000 + i.toNat + 1))))) ∧
    (16 ≤ i.toNat → i.toNat < 32 → g.val = (5 * i.toNat + 1) % 16 →
      exec (.roundg i) s = .next (s.setCur (e.afterRound q
        (((q.d &&& q.b) ||| (~~~q.d &&& q.c)) + q.a + roundConst i + x) (shiftAmount i)
        (BitVec.ofNat 16 (0x6000 + i.toNat + 1))))) ∧
    (32 ≤ i.toNat → i.toNat < 48 → g.val = (3 * i.toNat + 5) % 16 →
      exec (.roundh i) s = .next (s.setCur (e.afterRound q
        ((q.b ^^^ q.c ^^^ q.d) + q.a + roundConst i + x) (shiftAmount i)
        (BitVec.ofNat 16 (0x6000 + i.toNat + 1))))) ∧
    (48 ≤ i.toNat → g.val = (7 * i.toNat) % 16 →
      exec (.roundi i) s = .next (s.setCur (e.afterRound q
        ((q.c ^^^ (q.b ||| ~~~q.d)) + q.a + roundConst i + x) (shiftAmount i)
        (if i.toNat = 63 then 0x7000#16 else BitVec.ofNat 16 (0x6000 + i.toNat + 1)))))

/-- R160: ACCUM adds word by word mod 2^32 and advances the counter; what follows is R182's, tested on the new counter.
That a counter of finite width wraps is log 9; R9's constraint keeps it from wrapping. -/
def Obligations.AccumAddsTheBlockAndAdvances : Prop :=
  decodeSeq 0x7000#16 = .ok .accum ∧
  ∀ (s : State) (e : Engine) (h w : Quad) (buf : Memory) (blk k : Nat), s.cur = some e → e.HoldsH h → e.HoldsW w →
    e.buf = .holds buf → e.blk = .holds blk →
    (s.params.blkBits = none → k = blk + 1) → (∀ n, s.params.blkBits = some n → k = (blk + 1) % 2 ^ n) →
    exec .accum s = .next (s.setCur { e with
      ha := .holds (BitVec.ofNat 32 (h.a.toNat + w.a.toNat)), hb := .holds (BitVec.ofNat 32 (h.b.toNat + w.b.toNat)),
      hc := .holds (BitVec.ofNat 32 (h.c.toNat + w.c.toNat)), hd := .holds (BitVec.ofNat 32 (h.d.toNat + w.d.toNat)),
      blk := .holds k, seq := if 64 * k < buf.len then 0x5000#16 else 0x8000#16 })

/-- R170, R171: SERIAL writes the 32 characters, two for each byte of each word, by the position map. -/
def Obligations.SerialWritesTheDigestByThePositionMap : Prop :=
  decodeSeq 0x8000#16 = .ok .serial ∧
  ∀ (s : State) (e : Engine) (q : Quad), s.cur = some e → e.HoldsH q →
    ∃ chars : Vector (Reg Byte) 32,
      (∀ (t : Nat) (ht : t < 4),
        chars[2 * t] = .holds (hexChar (q.a.extractLsb' (8 * t + 4) 4)) ∧
        chars[2 * t + 1] = .holds (hexChar (q.a.extractLsb' (8 * t) 4)) ∧
        chars[8 + 2 * t] = .holds (hexChar (q.b.extractLsb' (8 * t + 4) 4)) ∧
        chars[8 + 2 * t + 1] = .holds (hexChar (q.b.extractLsb' (8 * t) 4)) ∧
        chars[16 + 2 * t] = .holds (hexChar (q.c.extractLsb' (8 * t + 4) 4)) ∧
        chars[16 + 2 * t + 1] = .holds (hexChar (q.c.extractLsb' (8 * t) 4)) ∧
        chars[24 + 2 * t] = .holds (hexChar (q.d.extractLsb' (8 * t + 4) 4)) ∧
        chars[24 + 2 * t + 1] = .holds (hexChar (q.d.extractLsb' (8 * t) 4))) ∧
      exec .serial s = .next (s.setCur { e with dout := chars, seq := 0x9000#16 })

/-- R180, R181: in IDLE and in DONE there is no core step; the engine stays as it is (log 3). -/
def Obligations.IdleAndDoneLeaveEverything : Prop :=
  decodeSeq 0x0000#16 = .ok .idle ∧ decodeSeq 0x9000#16 = .ok .done ∧
  ∀ (s : State) (e : Engine), s.cur = some e → exec .idle s = .next s ∧ exec .done s = .next s

/-- R34, R224: a micro-operation that reads a register holding no value records UnwrittenRead with the first such register
in reading order (that order is read from the pseudocode, log 10) and writes nothing else. -/
def Obligations.FirstUnwrittenOperandIsRecorded : Prop :=
  ∀ (i : Instr) (s : State) (e : Engine) (name : RegName), s.cur = some e →
    (e.operands i).find? (fun r => !r.2) = some (name, false) →
    exec i s = .next (s.setCur (e.record (.unwrittenRead e.seq name)))

/-! ## The host commands -/

/-- R200, R205, R224: START. An admitted message is loaded whole when the core is not BUSY; while BUSY it faults; a message
that is not admitted has no step. That "no step" is a next state that changes nothing is the model's choice (log 4), that
START loads in a faulted engine too is DEDUCED (log 16), and the canonical form of the loaded buffer is the model's
(log 13). -/
def Obligations.StartLoadsTheMessage : Prop :=
  ∀ (s : State) (e : Engine) (msg : List Byte), s.cur = some e →
    ((∀ n, s.params.maxMsgBytes = some n → msg.length ≤ n) →
      ((e.seq.extractLsb' 12 4 = 0#4 ∨ e.seq.extractLsb' 12 4 = 9#4) →
        ∃ buf : Memory, (∀ j, buf.byteAt j = msg[j]?) ∧ buf.len = msg.length ∧ buf.wf = true ∧
          exec (.start msg) s = .next (s.setCur { e with buf := .holds buf, seq := 0x1000#16 })) ∧
      (e.seq.extractLsb' 12 4 ≠ 0#4 → e.seq.extractLsb' 12 4 ≠ 9#4 →
        exec (.start msg) s = .next (s.setCur (e.record (.startWhileBusy e.seq 0x01#8))))) ∧
    (∀ n, s.params.maxMsgBytes = some n → n < msg.length → exec (.start msg) s = .next s)

/-- R35, R201: RDSTAT answers `STATUS` in every state and changes nothing else. -/
def Obligations.RdstatAnswersTheStatus : Prop :=
  ∀ (s : State) (e : Engine), s.cur = some e →
    ∃ v : Byte, exec .rdstat s = .next { s with reply := .status v } ∧
      v = (if e.seq.extractLsb' 12 4 = 0#4 then 0x00#8 else if e.seq.extractLsb' 12 4 = 9#4 then 0x02#8 else 0x01#8)

/-- R202: RDDIG answers the 32 characters in DONE, changing nothing else, and faults elsewhere. -/
def Obligations.RddigAnswersTheDigestOnlyInDone : Prop :=
  ∀ (s : State) (e : Engine), s.cur = some e →
    (∀ chars : Vector Byte 32, e.seq.extractLsb' 12 4 = 9#4 → (∀ n : Fin 32, e.dout[n] = .holds chars[n]) →
      exec .rddig s = .next { s with reply := .digest chars }) ∧
    (e.seq.extractLsb' 12 4 ≠ 9#4 → exec .rddig s = .next (s.setCur (e.record (.earlyDigestRead e.seq 0x03#8))))

/-- R34, R202: RDDIG in DONE with a character of `DOUT` unwritten records UnwrittenRead with the first such character and
writes nothing else. That RDDIG's read of `DOUT` is a register read in the sense of R34, made after the test of `SEQ`, is
DEDUCED (log 24: R224 lists no UnwrittenRead for a host command); the reading order 0 to 31 is DEDUCED too (log 10). -/
def Obligations.RddigOfAnUnwrittenDigestFaults : Prop :=
  ∀ (s : State) (e : Engine) (n : Fin 32), s.cur = some e → e.seq.extractLsb' 12 4 = 9#4 → e.dout[n] = .unwritten →
    (∀ n' : Fin 32, n' < n → e.dout[n'] ≠ .unwritten) →
    exec .rddig s = .next (s.setCur (e.record (.unwrittenRead e.seq (.dout n))))

/-! ## Frames -/

/-- R33, R53: what INIT, PADM, PADZ and APLEN leave. INIT stores nothing; the others store 1, 1 and 8 bytes at byte index
len(BUF). -/
def Obligations.PaddingOperationsFrame : Prop :=
  ∀ (i : Instr) (n : Nat), (i, n) ∈ [(Instr.init, 0), (.padm, 1), (.padz, 1), (.aplen, 8)] →
  ∀ (s t : State) (e e' : Engine), exec i s = .next t → s.cur = some e → t.cur = some e' →
    e'.a = e.a ∧ e'.b = e.b ∧ e'.c = e.c ∧ e'.d = e.d ∧ e'.m = e.m ∧ e'.dout = e.dout ∧
    (i ≠ .init → e'.ol = e.ol ∧ e'.ha = e.ha ∧ e'.hb = e.hb ∧ e'.hc = e.hc ∧ e'.hd = e.hd ∧ e'.blk = e.blk) ∧
    (e.buf = .unwritten → e'.buf = .unwritten) ∧
    (∀ buf, e.buf = .holds buf → ∃ buf', e'.buf = .holds buf' ∧
      ∀ j, (j < buf.len ∨ buf.len + n ≤ j) → buf'.byteAt j = buf.byteAt j) ∧
    (e'.faults = e.faults ∨ ∃ f, e' = e.record f) ∧ t = s.setCur e'

/-- R33, R145: what LOADB, the rounds, ACCUM and SERIAL leave. None of them stores to `BUF`. -/
def Obligations.BlockOperationsFrame : Prop :=
  ∀ (i : Instr) (s t : State) (e e' : Engine), exec i s = .next t → s.cur = some e → t.cur = some e' →
    (i = .loadb ∨ (∃ r, i = .roundf r ∨ i = .roundg r ∨ i = .roundh r ∨ i = .roundi r) ∨ i = .accum ∨ i = .serial) →
    e'.ol = e.ol ∧ e'.buf = e.buf ∧
    (∀ buf buf', e.buf = .holds buf → e'.buf = .holds buf' → ∀ j, buf'.byteAt j = buf.byteAt j) ∧
    (i ≠ .accum → e'.ha = e.ha ∧ e'.hb = e.hb ∧ e'.hc = e.hc ∧ e'.hd = e.hd ∧ e'.blk = e.blk) ∧
    (i = .accum ∨ i = .serial → e'.a = e.a ∧ e'.b = e.b ∧ e'.c = e.c ∧ e'.d = e.d) ∧
    (i ≠ .loadb → e'.m = e.m) ∧ (i ≠ .serial → e'.dout = e.dout) ∧
    (e'.faults = e.faults ∨ ∃ f, e' = e.record f) ∧ t = s.setCur e'

/-- R32, R33, R200 to R202: what the host commands leave. START writes `BUF` and `SEQ` only; RDSTAT and RDDIG write no
register; none of them writes a constant or another engine. -/
def Obligations.HostCommandsFrame : Prop :=
  ∀ (i : Instr) (s t : State) (e e' : Engine), exec i s = .next t → s.cur = some e → t.cur = some e' →
    ((∃ msg, i = .start msg) → e' = { e with buf := e'.buf, seq := e'.seq, faults := e'.faults } ∧
      t = s.setCur e' ∧ (e'.faults ≠ e.faults → e'.buf = e.buf ∧ e'.seq = e.seq)) ∧
    (i = .rdstat → e' = e ∧ t = { s with reply := t.reply }) ∧
    (i = .rddig → e' = { e with faults := e'.faults } ∧ t = { s.setCur e' with reply := t.reply } ∧
      (e'.faults ≠ e.faults → t.reply = s.reply)) ∧
    (i = .idle ∨ i = .done → t = s)

/-- R223: the instruction that raises a fault writes nothing but the record. That the record is a list and the new fault its
last entry is the model's choice (log 12); that the fault is in it is R223's. -/
def Obligations.FaultingInstructionWritesNothingElse : Prop :=
  ∀ (i : Instr) (s t : State) (e e' : Engine) (f : CoreFault), exec i s = .next t → s.cur = some e → t.cur = some e' →
    f ∈ e'.faults → f ∉ e.faults → t = s.setCur { e with faults := e.faults ++ [f] }

/-- R40, R206, R232: a step touches only the engine its move is addressed to, and never the parameters. That with nothing on
the agenda the move is that of the engine next in turn, and that the selection names it, is the model's choice (log 5). -/
def Obligations.OnlyTheAddressedEngineChanges : Prop :=
  ∀ (s t : State), step s = .next t →
    t.sel = s.mover ∧ (s.agenda = [] → s.mover = s.turn) ∧ (∀ ev rest, s.agenda = ev :: rest → s.mover = ev.target) ∧
    (∀ k, k ≠ t.sel → t.engines[k]? = s.engines[k]?) ∧ t.engines.length = s.engines.length ∧ t.params = s.params

/-- R7, R40, R188: what a move does to its engine, and what the host is told, depends on that engine, the move and the
parameters alone: not on another engine, and not on the moves to come. -/
def Obligations.AnEngineEvolvesFromItselfAlone : Prop :=
  ∀ (s s' t : State) (ev : Event) (rest rest' : List Event), s.agenda = ev :: rest → s'.agenda = ev :: rest' →
    s.params = s'.params → s.engines[ev.target]? = s'.engines[ev.target]? → step s = .next t →
    ∃ t', step s' = .next t' ∧ t'.engines[ev.target]? = t.engines[ev.target]? ∧
      (s.reply = s'.reply → t'.reply = t.reply)

/-- R53: a core step never overwrites a byte of `BUF`; it leaves the buffer or appends to it. -/
def Obligations.CoreStepsOnlyAppendToTheBuffer : Prop :=
  ∀ (s t : State) (k : Nat) (e e' : Engine) (buf : Memory), step s = .next t →
    (s.agenda = [] ∨ ∃ j rest, s.agenda = .core j :: rest) → s.engines[k]? = some e → t.engines[k]? = some e' →
    e.buf = .holds buf → ∃ xs : List Byte, e'.buf = .holds (buf.append xs) ∧ xs.length ≤ 8

/-! ## The invariant -/

/-- R12, R50, R51: every step keeps every buffer in canonical form: the bytes indexed 0 to len(BUF)-1 (log 13). -/
def Obligations.EveryStepKeepsTheBufferCanonical : Prop :=
  ∀ s t : State, (∀ e ∈ s.engines, ∀ buf, e.buf = .holds buf → buf.wf = true) → step s = .next t →
    ∀ e ∈ t.engines, ∀ buf, e.buf = .holds buf → buf.wf = true

/-- R38, R253: every machine right after power-on has the invariant. -/
def Obligations.PowerOnHasTheInvariant : Prop :=
  (∀ (p : Params) (n : Nat), p.fits = true → 0 < n → (State.powerOn p n).Inv) ∧ State.reset.Inv

/-- R21, R105, R161, R185, R254: every step, of any agent, keeps the invariant: `SEQ` stays legal and every register holds
what the digest computation of the loaded message has put there. -/
def Obligations.EveryStepKeepsTheInvariant : Prop :=
  ∀ s t : State, s.Inv → step s = .next t → t.Inv

/-- R222: from a state with the invariant, a step adds only faults of a broken host duty (codes 5, 6, 7): codes 1 to 4 are
unreachable. -/
def Obligations.OnlyHostDutyFaultsAreReachable : Prop :=
  ∀ (s t : State) (k : Nat) (e e' : Engine) (f : CoreFault), s.Inv → step s = .next t →
    s.engines[k]? = some e → t.engines[k]? = some e' → f ∈ e'.faults → f ∉ e.faults → 5 ≤ f.code

/-- R204, R254 and U2 of spec 93: while the host keeps its duties no step raises a fault. -/
def Obligations.NoFaultWhileTheHostKeepsItsDuties : Prop :=
  ∀ (s t : State) (k : Nat) (e e' : Engine), s.Inv → s.dutyKept = true → step s = .next t →
    s.engines[k]? = some e → t.engines[k]? = some e' → ∀ f ∈ e'.faults, f ∈ e.faults

/-- R22, R27, R58: the buffer never exceeds MAX_MSG_BYTES + 72 bytes; once INIT has run, the counter never exceeds
len(BUF) / 64 and LOADB runs only with a whole block there. -/
def Obligations.BufferAndCounterStayInBounds : Prop :=
  ∀ (s : State) (e : Engine) (buf : Memory) (op : Instr), s.Inv → e ∈ s.engines → e.buf = .holds buf →
    decodeSeq e.seq = .ok op →
    (∀ n, s.params.maxMsgBytes = some n → buf.len ≤ n + 72) ∧
    (op ≠ .init → ∃ blk, e.blk = .holds blk ∧ blk ≤ buf.len / 64) ∧
    (op = .loadb → ∃ blk, e.blk = .holds blk ∧ 64 * (blk + 1) ≤ buf.len ∧ buf.len % 64 = 0)

/-! ## Whole runs -/

/-- R104, R105: from INIT, the padding engine takes exactly 3 + (55 − L) mod 64 core steps and leaves the padded buffer. -/
def Obligations.PaddingEngineBuildsThePaddedBuffer : Prop :=
  ∀ (s : State) (k : Nat) (e : Engine) (msg : List Byte) (rest : List Event), s.engines[k]? = some e → e.faults = [] →
    e.seq = 0x1000#16 → e.buf = .holds (Memory.ofBytes msg) →
    s.agenda = List.replicate (3 + ((55 - (msg.length : Int)) % 64).toNat) (.core k) ++ rest →
    ∃ t e', Host.Core.run Sys2Proof.core (3 + ((55 - (msg.length : Int)) % 64).toNat) s = .next t ∧
      t.agenda = rest ∧ t.engines[k]? = some e' ∧ e'.faults = [] ∧ e'.seq = 0x5000#16 ∧
      e'.buf = .holds (Memory.ofBytes (msg ++ [0x80#8] ++ List.replicate ((55 - (msg.length : Int)) % 64).toNat 0x00#8
        ++ leBytes 8 (msg.length * 8 % 2 ^ 64)))

/-- R185: from INIT, a run reaches DONE after exactly N(L) core steps, without a fault; the micro-operations it runs are the
listed sequence, nb of them LOADB and nb of them ACCUM. -/
def Obligations.RunReachesDoneAfterExactlyItsStepCount : Prop :=
  ∀ (s : State) (k : Nat) (e : Engine) (msg : List Byte) (rest : List Event), s.params.fits = true →
    s.params.admits msg.length = true → s.engines[k]? = some e → e.faults = [] → e.seq = 0x1000#16 →
    e.buf = .holds (Memory.ofBytes msg) → s.agenda = List.replicate (stepCount msg.length) (.core k) ++ rest →
    (runOps msg.length).length = stepCount msg.length ∧
    (runOps msg.length).count .loadb = blockCount msg.length ∧ (runOps msg.length).count .accum = blockCount msg.length ∧
    (∀ n op, (runOps msg.length)[n]? = some op →
      ∃ t e', Host.Core.run Sys2Proof.core n s = .next t ∧ t.engines[k]? = some e' ∧ e'.faults = [] ∧
        decodeSeq e'.seq = .ok op) ∧
    ∃ t e', Host.Core.run Sys2Proof.core (stepCount msg.length) s = .next t ∧ t.agenda = rest ∧
      t.engines[k]? = some e' ∧ e'.ended = true

/-- R203: `START(msg); WAIT; RDDIG`, issued from IDLE or DONE with an empty fault record, returns the digest string of the
message, with no fault, whatever the other engines are doing. That WAIT's polls alternate with rounds of one core step of
each engine, and with it the number of model steps, is the model's choice (log 17). -/
def Obligations.ComputeDigestReturnsTheDigest : Prop :=
  ∀ (s : State) (k : Nat) (e : Engine) (msg : List Byte) (rest : List Event), s.params.fits = true →
    s.params.admits msg.length = true → s.engines[k]? = some e → e.faults = [] → busy e.seq = false →
    s.agenda = hostLineMoves k (.digest msg) ++ rest →
    ∃ t e', Host.Core.run Sys2Proof.core ((s.engines.length + 1) * stepCount msg.length + 3) s = .next t ∧ t.agenda = rest ∧
      t.engines[k]? = some e' ∧ e'.ended = true ∧ t.reply = .digest (md5 msg)

/-- R206, R232: after START, any interleaving of N(L) core steps of the engine with RDSTATs to it and with any moves of the
other engines leaves the same digest in `DOUT`. That an RDSTAT sent with bytes it does not name is an RDSTAT is the model's
choice (log 14). -/
def Obligations.InterleavingsDoNotChangeTheDigest : Prop :=
  ∀ (s : State) (k : Nat) (e : Engine) (msg : List Byte) (moves rest : List Event), s.params.fits = true →
    s.params.admits msg.length = true → s.engines[k]? = some e → e.faults = [] → e.seq = 0x1000#16 →
    e.buf = .holds (Memory.ofBytes msg) → s.agenda = moves ++ rest →
    (∀ ev ∈ moves, ev.target < s.engines.length ∧
      (ev.target = k → ev = .core k ∨ ∃ payload, ev = .host k 0x02#8 payload) ∧ ∀ j, ev ≠ .wait j) →
    moves.count (.core k) = stepCount msg.length →
    ∃ t e', Host.Core.run Sys2Proof.core moves.length s = .next t ∧ t.agenda = rest ∧ t.engines[k]? = some e' ∧
      e'.ended = true ∧ ∀ n : Fin 32, e'.dout[n] = .holds (md5 msg)[n]

/-- R187: with nothing on the agenda every engine comes to its core step within N_INST steps (the turn order is the model's
choice, log 5). -/
def Obligations.EveryEngineTakesItsTurn : Prop :=
  ∀ (s : State) (k : Nat), s.agenda = [] → s.sel < s.engines.length → k < s.engines.length →
    ∃ n t, 0 < n ∧ n ≤ s.engines.length ∧ Host.Core.run Sys2Proof.core n s = .next t ∧ t.sel = k

/-- R187, D26: an engine whose core step is enabled eventually takes it. Whatever moves to engines of the machine the agenda
holds, WAITs that never end among them, every engine comes to its core step before as many steps as the agenda has moves
and the machine engines (what that step does is CoreStepRunsTheDecodedMicroOperation). The order of turns and of the core
steps between two polls of a WAIT, and with it the bound, is the model's choice (logs 5, 17). -/
def Obligations.EveryEngineComesToItsCoreStepWhateverTheAgenda : Prop :=
  ∀ (s : State) (k : Nat), k < s.engines.length → (∀ ev ∈ s.agenda, ev.target < s.engines.length) →
    ∃ n t rest, n < s.agenda.length + s.engines.length ∧ Host.Core.run Sys2Proof.core n s = .next t ∧
      (t.agenda = .core k :: rest ∨ (t.agenda = [] ∧ k = t.turn ∧ rest = []))

/-! ## Values -/

/-- R52, R53: appending a value as n little-endian bytes lengthens the buffer by n and overwrites nothing, the value reads
back from where it was put, and a read answers exactly where its range lies inside the buffer. The canonical form assumed
and kept, (index, byte) cells with the indexes rising from 0, is the model's representation (log 13). -/
def Obligations.BufferReadsBackWhatWasAppended : Prop :=
  ∀ (buf : Memory) (n v : Nat), buf.wf = true → 0 < n → v < 2 ^ (8 * n) →
    (buf.write n v).wf = true ∧ (buf.write n v).len = buf.len + n ∧ (buf.write n v).read buf.len n = some v ∧
    (∀ j, (j < buf.len ∨ buf.len + n ≤ j) → (buf.write n v).byteAt j = buf.byteAt j) ∧
    (∀ j, buf.read j n = none ↔ buf.len < j + n)

/-- R134: a left rotation moves bit (t − n) mod 32 to bit t, and is undefined outside 1..31. -/
def Obligations.RotationMovesEveryBit : Prop :=
  ∀ (x : Word) (n : Nat),
    (1 ≤ n → n ≤ 31 → ∃ r, rotl32 x n = some r ∧ ∀ t, t < 32 → r.getLsbD t = x.getLsbD ((t + 32 - n) % 32)) ∧
    (n = 0 ∨ 32 ≤ n → rotl32 x n = none)

/-- R131, R260: the rotation amounts, quarter by quarter, all of them in 4..23. -/
def Obligations.RotationAmountsFollowTheQuarters : Prop :=
  ∀ i : RoundIndex, 4 ≤ shiftAmount i ∧ shiftAmount i ≤ 23 ∧
    (i.toNat < 16 → shiftAmount i = [7, 12, 17, 22].getD (i.toNat % 4) 0) ∧
    (16 ≤ i.toNat → i.toNat < 32 → shiftAmount i = [5, 9, 14, 20].getD (i.toNat % 4) 0) ∧
    (32 ≤ i.toNat → i.toNat < 48 → shiftAmount i = [4, 11, 16, 23].getD (i.toNat % 4) 0) ∧
    (48 ≤ i.toNat → shiftAmount i = [6, 10, 15, 21].getD (i.toNat % 4) 0)

/-- R132: the additive constants, as the table prints them. -/
def Obligations.RoundConstantsAreTheTable : Prop :=
  ∀ i : RoundIndex, some (roundConst i) =
    (([0xD76AA478, 0xE8C7B756, 0x242070DB, 0xC1BDCEEE, 0xF57C0FAF, 0x4787C62A, 0xA8304613, 0xFD469501]
    ++ [0x698098D8, 0x8B44F7AF, 0xFFFF5BB1, 0x895CD7BE, 0x6B901122, 0xFD987193, 0xA679438E, 0x49B40821]
    ++ [0xF61E2562, 0xC040B340, 0x265E5A51, 0xE9B6C7AA, 0xD62F105D, 0x02441453, 0xD8A1E681, 0xE7D3FBC8]
    ++ [0x21E1CDE6, 0xC33707D6, 0xF4D50D87, 0x455A14ED, 0xA9E3E905, 0xFCEFA3F8, 0x676F02D9, 0x8D2A4C8A]
    ++ [0xFFFA3942, 0x8771F681, 0x6D9D6122, 0xFDE5380C, 0xA4BEEA44, 0x4BDECFA9, 0xF6BB4B60, 0xBEBFBC70]
    ++ [0x289B7EC6, 0xEAA127FA, 0xD4EF3085, 0x04881D05, 0xD9D4D039, 0xE6DB99E5, 0x1FA27CF8, 0xC4AC5665]
    ++ [0xF4292244, 0x432AFF97, 0xAB9423A7, 0xFC93A039, 0x655B59C3, 0x8F0CCC92, 0xFFEFF47D, 0x85845DD1]
    ++ [0x6FA87E4F, 0xFE2CE6E0, 0xA3014314, 0x4E0811A1, 0xF7537E82, 0xBD3AF235, 0x2AD7D2BB, 0xEB86D391] : List Word))[i.toNat]?

/-- R139: the message index in each quarter, and that each quarter takes every word exactly once. -/
def Obligations.MessageIndexTakesEveryWordOncePerQuarter : Prop :=
  (∀ i : RoundIndex,
    (i.toNat < 16 → (msgIndex i).val = i.toNat) ∧
    (16 ≤ i.toNat → i.toNat < 32 → (msgIndex i).val = (5 * i.toNat + 1) % 16) ∧
    (32 ≤ i.toNat → i.toNat < 48 → (msgIndex i).val = (3 * i.toNat + 5) % 16) ∧
    (48 ≤ i.toNat → (msgIndex i).val = (7 * i.toNat) % 16)) ∧
  ∀ (quarter : Fin 4) (g : Fin 16), ∃ i : RoundIndex, (i.toNat / 16 = quarter.val ∧ msgIndex i = g) ∧
    ∀ i' : RoundIndex, i'.toNat / 16 = quarter.val → msgIndex i' = g → i' = i

/-- R135 to R138: the auxiliary functions bit by bit. -/
def Obligations.AuxiliaryFunctionsActBitByBit : Prop :=
  ∀ (b c d : Word) (t : Nat), t < 32 →
    (auxF b c d).getLsbD t = (if b.getLsbD t then c.getLsbD t else d.getLsbD t) ∧
    (auxG b c d).getLsbD t = (if d.getLsbD t then b.getLsbD t else c.getLsbD t) ∧
    (auxH b c d).getLsbD t = (b.getLsbD t ^^ (c.getLsbD t ^^ d.getLsbD t)) ∧
    (auxI b c d).getLsbD t = (c.getLsbD t ^^ (b.getLsbD t || !d.getLsbD t))

/-- R35: the bits of `STATUS`, that BUSY and DONE are never both 1, and its reset value. -/
def Obligations.StatusBitsAreAViewOfSeq : Prop :=
  (∀ w : SeqWord,
    ((statusOf w).getLsbD 0 = true ↔ w.extractLsb' 12 4 ≠ 0#4 ∧ w.extractLsb' 12 4 ≠ 9#4) ∧
    ((statusOf w).getLsbD 1 = true ↔ w.extractLsb' 12 4 = 9#4) ∧
    (∀ n, 2 ≤ n → (statusOf w).getLsbD n = false) ∧
    ¬ ((statusOf w).getLsbD 0 = true ∧ (statusOf w).getLsbD 1 = true)) ∧
  statusOf Engine.reset.seq = 0x00#8

/-- R79: the digits map to ASCII, and every character SERIAL stores in `DOUT` is a lower-case hexadecimal digit. -/
def Obligations.DigestCharactersAreLowerCaseHex : Prop :=
  (∀ v : BitVec 4, (v.toNat ≤ 9 → (hexChar v).toNat = 0x30 + v.toNat) ∧
    (10 ≤ v.toNat → (hexChar v).toNat = 0x61 + (v.toNat - 10))) ∧
  ∀ (s : State) (e : Engine) (q : Quad), s.cur = some e → e.HoldsH q →
    ∃ t e', exec .serial s = .next t ∧ t.cur = some e' ∧ ∀ n : Fin 32, ∃ x : Byte, e'.dout[n] = .holds x ∧
      ((0x30 ≤ x.toNat ∧ x.toNat ≤ 0x39) ∨ (0x61 ≤ x.toNat ∧ x.toNat ≤ 0x66))

/-- R105, R106: the padded length is a whole number of blocks, nb, and where the block count steps. -/
def Obligations.PaddedLengthIsAWholeNumberOfBlocks : Prop :=
  ∀ msg : List Byte,
    (padMessage msg).length = 64 * ((msg.length + 8) / 64 + 1) ∧
    (msg.length % 64 ≤ 55 → blockCount msg.length = msg.length / 64 + 1) ∧
    (56 ≤ msg.length % 64 → blockCount msg.length = msg.length / 64 + 2) ∧
    blockCount 55 = 1 ∧ zeroCount 55 = 0 ∧ blockCount 56 = 2 ∧ zeroCount 56 = 63

/-- R57, R105, R107: in the last block `M[14]` is bits 31:0 of the bit length and `M[15]` bits 63:32. -/
def Obligations.LengthFieldIsTheLastTwoWords : Prop :=
  ∀ msg : List Byte,
    blockWord (padMessage msg) (blockCount msg.length - 1) 14 = BitVec.ofNat 32 (msg.length * 8) ∧
    blockWord (padMessage msg) (blockCount msg.length - 1) 15 = BitVec.ofNat 32 (msg.length * 8 / 2 ^ 32)
end

