-- ==== Sys2Proof/Laws/Encoding.lean ====
section
/-!
SUPPORT. Lemmas about the control word's fields, the encoder and the decoder (spec/30_encoding.md).
-/

namespace Sys2Proof

/-- Bit by bit, `enc` lays its fields out as R71 says. -/
theorem getLsbD_enc (op : BitVec 4) (i : RoundIndex) (k : Nat) :
    (enc op i).getLsbD k = if k < 6 then i.getLsbD k else if k < 12 then false else op.getLsbD (k - 12) := by
  have h : (enc op i).getLsbD k = (((op ++ (0#6)) ++ i : BitVec (4 + 6 + 6))).getLsbD k := rfl
  rw [h, BitVec.getLsbD_append, BitVec.getLsbD_append]
  by_cases h1 : k < 6
  · simp [h1]
  · by_cases h2 : k < 12
    · have h3 : k - 6 < 6 := by omega
      simp [h1, h2, h3]
    · have h3 : ¬ k - 6 < 6 := by omega
      simp [h1, h2, h3, Nat.sub_sub]

@[simp] theorem opField_enc (op : BitVec 4) (i : RoundIndex) : opField (enc op i) = op := by
  apply BitVec.eq_of_getLsbD_eq
  intro k hk
  simp [opField, getLsbD_enc, hk, show ¬ 12 + k < 6 by omega]

@[simp] theorem rsvField_enc (op : BitVec 4) (i : RoundIndex) : rsvField (enc op i) = 0#6 := by
  apply BitVec.eq_of_getLsbD_eq
  intro k hk
  simp [rsvField, getLsbD_enc, show 6 + k < 12 by omega]

@[simp] theorem riField_enc (op : BitVec 4) (i : RoundIndex) : riField (enc op i) = i := by
  apply BitVec.eq_of_getLsbD_eq
  intro k hk
  simp [riField, getLsbD_enc, hk]

/-- A word whose reserved field is 0 is the encoding of its two other fields (R71). -/
theorem enc_fields (w : SeqWord) (h : rsvField w = 0#6) : enc (opField w) (riField w) = w := by
  apply BitVec.eq_of_getLsbD_eq
  intro k hk
  rw [getLsbD_enc]
  by_cases h1 : k < 6
  · simp [riField, h1]
  · by_cases h2 : k < 12
    · have hr := congrArg (fun v : BitVec 6 => v.getLsbD (k - 6)) h
      simp only [rsvField, BitVec.getLsbD_extractLsb'] at hr
      rw [show 6 + (k - 6) = k by omega] at hr
      simp [show k - 6 < 6 by omega] at hr
      simp [h1, h2, hr]
    · simp [opField, h1, h2, show k - 12 < 4 by omega, show 12 + (k - 12) = k by omega]

/-- Equal control words have equal fields. -/
theorem enc_inj {op op' : BitVec 4} {i i' : RoundIndex} : enc op i = enc op' i' ↔ op = op' ∧ i = i' := by
  constructor
  · intro h
    exact ⟨by simpa using congrArg opField h, by simpa using congrArg riField h⟩
  · rintro ⟨rfl, rfl⟩
    rfl

/-- The quarter of a round index is `RI[5:4]` (R73). -/
theorem quarter_toNat (i : RoundIndex) : (i.extractLsb' 4 2).toNat = i.toNat / 16 := by
  have := i.isLt
  simp [BitVec.extractLsb'_toNat, Nat.shiftRight_eq_div_pow]
  omega

theorem roundInstr_f {i : RoundIndex} (h : i.toNat < 16) : roundInstr i = .roundf i := by
  rw [roundInstr, quarter_toNat, show i.toNat / 16 = 0 by omega]
  rfl

theorem roundInstr_g {i : RoundIndex} (h : 16 ≤ i.toNat) (h' : i.toNat < 32) : roundInstr i = .roundg i := by
  rw [roundInstr, quarter_toNat, show i.toNat / 16 = 1 by omega]
  rfl

theorem roundInstr_h {i : RoundIndex} (h : 32 ≤ i.toNat) (h' : i.toNat < 48) : roundInstr i = .roundh i := by
  rw [roundInstr, quarter_toNat, show i.toNat / 16 = 2 by omega]
  rfl

theorem roundInstr_i {i : RoundIndex} (h : 48 ≤ i.toNat) : roundInstr i = .roundi i := by
  have := i.isLt
  rw [roundInstr, quarter_toNat, show i.toNat / 16 = 3 by omega]
  rfl

/-- The round a control word's index selects, by quarters. -/
theorem roundInstr_cases (i : RoundIndex) :
    (i.toNat < 16 ∧ roundInstr i = .roundf i) ∨ (16 ≤ i.toNat ∧ i.toNat < 32 ∧ roundInstr i = .roundg i) ∨
    (32 ≤ i.toNat ∧ i.toNat < 48 ∧ roundInstr i = .roundh i) ∨ (48 ≤ i.toNat ∧ roundInstr i = .roundi i) := by
  have := i.isLt
  rcases Nat.lt_or_ge i.toNat 16 with h | h
  · exact .inl ⟨h, roundInstr_f h⟩
  · rcases Nat.lt_or_ge i.toNat 32 with h2 | h2
    · exact .inr (.inl ⟨h, h2, roundInstr_g h h2⟩)
    · rcases Nat.lt_or_ge i.toNat 48 with h3 | h3
      · exact .inr (.inr (.inl ⟨h2, h3, roundInstr_h h2 h3⟩))
      · exact .inr (.inr (.inr ⟨h3, roundInstr_i h3⟩))

@[simp] theorem decodeSeq_idle : decodeSeq (enc 0x0#4 0#6) = .ok .idle := by decide
@[simp] theorem decodeSeq_init : decodeSeq (enc 0x1#4 0#6) = .ok .init := by decide
@[simp] theorem decodeSeq_padm : decodeSeq (enc 0x2#4 0#6) = .ok .padm := by decide
@[simp] theorem decodeSeq_padz : decodeSeq (enc 0x3#4 0#6) = .ok .padz := by decide
@[simp] theorem decodeSeq_aplen : decodeSeq (enc 0x4#4 0#6) = .ok .aplen := by decide
@[simp] theorem decodeSeq_loadb : decodeSeq (enc 0x5#4 0#6) = .ok .loadb := by decide
@[simp] theorem decodeSeq_accum : decodeSeq (enc 0x7#4 0#6) = .ok .accum := by decide
@[simp] theorem decodeSeq_serial : decodeSeq (enc 0x8#4 0#6) = .ok .serial := by decide
@[simp] theorem decodeSeq_done : decodeSeq (enc 0x9#4 0#6) = .ok .done := by decide

/-- The ROUND rows of R72 and R75. -/
@[simp] theorem decodeSeq_round (i : RoundIndex) : decodeSeq (enc 0x6#4 i) = .ok (roundInstr i) := by
  simp [decodeSeq]

/-- What a legal control word is (R75): one of the nine plain ones or a round's. -/
theorem decodeSeq_cases {w : SeqWord} {i : Instr} (h : decodeSeq w = .ok i) :
    (w = enc 0x0#4 0#6 ∧ i = .idle) ∨ (w = enc 0x1#4 0#6 ∧ i = .init) ∨ (w = enc 0x2#4 0#6 ∧ i = .padm) ∨
    (w = enc 0x3#4 0#6 ∧ i = .padz) ∨ (w = enc 0x4#4 0#6 ∧ i = .aplen) ∨ (w = enc 0x5#4 0#6 ∧ i = .loadb) ∨
    (∃ ri, w = enc 0x6#4 ri ∧ i = roundInstr ri) ∨ (w = enc 0x7#4 0#6 ∧ i = .accum) ∨ (w = enc 0x8#4 0#6 ∧ i = .serial) ∨
    (w = enc 0x9#4 0#6 ∧ i = .done) := by
  unfold decodeSeq at h
  by_cases h1 : rsvField w = 0#6
  · have hw := enc_fields w h1
    by_cases h2 : opField w = 0x6#4
    · simp [h1, h2] at h
      exact .inr (.inr (.inr (.inr (.inr (.inr (.inl ⟨riField w, by rw [← h2, hw], h.symm⟩))))))
    · by_cases h3 : riField w = 0#6
      · simp only [h1, h2, h3, ne_eq, not_true_eq_false, if_false] at h
        rw [h3] at hw
        rw [← hw]
        have key : ∀ (n : Nat) (v : BitVec 4), v.toNat = n → v = BitVec.ofNat 4 n := by
          intro n v hv
          rw [← hv, BitVec.ofNat_toNat, BitVec.setWidth_eq]
        split at h <;> simp only [Except.ok.injEq, reduceCtorEq] at h <;> subst h <;>
          rename_i hn <;> rw [key _ _ hn] <;> simp
      · simp [h1, h2, h3] at h
  · simp [h1] at h

theorem inQuarter_iff (q : Nat) (i : RoundIndex) : inQuarter q i = true ↔ 16 * q ≤ i.toNat ∧ i.toNat < 16 * q + 16 := by
  simp [inQuarter]

/-- The three host commands (R78). -/
theorem decodeHost_cases {code : Byte} {payload : List Byte} {i : Instr} (h : decodeHost code payload = .ok i) :
    (code = 0x01#8 ∧ i = .start payload) ∨ (code = 0x02#8 ∧ i = .rdstat) ∨ (code = 0x03#8 ∧ i = .rddig) := by
  have key : ∀ n : Nat, code.toNat = n → code = BitVec.ofNat 8 n := by
    intro n hv
    rw [← hv, BitVec.ofNat_toNat, BitVec.setWidth_eq]
  unfold decodeHost at h
  split at h <;> simp only [Except.ok.injEq, reduceCtorEq] at h <;> rename_i hn <;> have := key _ hn <;> subst this <;>
    simp [← h]

/-- A reserved code is refused (R207). -/
theorem decodeHost_reserved {code : Byte} {payload : List Byte} (h1 : code ≠ 0x01#8) (h2 : code ≠ 0x02#8)
    (h3 : code ≠ 0x03#8) : decodeHost code payload = .error (.illegalHostCmd code) := by
  rcases h : decodeHost code payload with e | i
  · unfold decodeHost at h
    split at h <;> simp at h
    rw [← h]
  · rcases decodeHost_cases h with h | h | h <;> exact absurd h.1 (by assumption)

/-- The decoder of `SEQ` refuses a word by that word (R76). -/
theorem decodeSeq_error {w : SeqWord} {x : DecodeError} (h : decodeSeq w = .error x) : x = .illegalSeq w := by
  unfold decodeSeq at h
  split at h
  · exact (Except.error.inj h).symm
  · split at h
    · cases h
    · split at h
      · exact (Except.error.inj h).symm
      · split at h <;> first | cases h; done | exact (Except.error.inj h).symm

end Sys2Proof
end

