-- ==== Sys2Proof/Laws/Memory.lean ====
section
/-!
SUPPORT. The message buffer (spec/20_memory.md): canonical form, reading after appending, little-endian values.
-/

namespace Sys2Proof.Machine

@[simp] theorem length_cellsFrom (base : Nat) (xs : List Byte) : (cellsFrom base xs).length = xs.length := by
  induction xs generalizing base with
  | nil => rfl
  | cons x xs ih => simp [cellsFrom, ih]

@[simp] theorem cellsFrom_bytes (base : Nat) (xs : List Byte) : (cellsFrom base xs).map Prod.snd = xs := by
  induction xs generalizing base with
  | nil => rfl
  | cons x xs ih => simp [cellsFrom, ih]

theorem cellsFrom_indexes (base : Nat) (xs : List Byte) :
    (cellsFrom base xs).map Prod.fst = List.range' base xs.length := by
  induction xs generalizing base with
  | nil => rfl
  | cons x xs ih => simp [cellsFrom, ih, List.range'_succ]

theorem cellsFrom_append (base : Nat) (xs ys : List Byte) :
    cellsFrom base (xs ++ ys) = cellsFrom base xs ++ cellsFrom (base + xs.length) ys := by
  induction xs generalizing base with
  | nil => simp [cellsFrom]
  | cons x xs ih => simp [cellsFrom, ih, Nat.add_assoc, Nat.add_comm 1]

@[simp] theorem Memory.len_ofBytes (xs : List Byte) : (Memory.ofBytes xs).len = xs.length := by
  simp [Memory.len, Memory.ofBytes]

@[simp] theorem Memory.bytes_ofBytes (xs : List Byte) : (Memory.ofBytes xs).bytes = xs := by
  simp [Memory.bytes, Memory.ofBytes]

/-- Two byte sequences laid out as buffers are the same buffer only if they are the same sequence. -/
theorem Memory.ofBytes_inj {xs ys : List Byte} : Memory.ofBytes xs = Memory.ofBytes ys ↔ xs = ys := by
  constructor
  · intro h
    simpa using congrArg Memory.bytes h
  · rintro rfl
    rfl

/-- START's buffer is canonical. -/
theorem Memory.wf_ofBytes (xs : List Byte) : (Memory.ofBytes xs).wf = true := by
  simp [Memory.wf, Memory.ofBytes, cellsFrom_indexes, List.range_eq_range']

/-- Appending to a sequence laid out from 0 is laying out the longer sequence (R53). -/
@[simp] theorem Memory.append_ofBytes (xs ys : List Byte) :
    (Memory.ofBytes xs).append ys = Memory.ofBytes (xs ++ ys) := by
  simp [Memory.append, Memory.ofBytes, cellsFrom_append, Memory.len]

@[simp] theorem Memory.len_append (buf : Memory) (xs : List Byte) : (buf.append xs).len = buf.len + xs.length := by
  simp [Memory.append, Memory.len]

@[simp] theorem Memory.bytes_append (buf : Memory) (xs : List Byte) : (buf.append xs).bytes = buf.bytes ++ xs := by
  simp [Memory.append, Memory.bytes]

/-- A buffer in canonical form is its bytes laid out from 0. -/
theorem Memory.eq_ofBytes_of_wf {buf : Memory} (h : buf.wf = true) : buf = Memory.ofBytes buf.bytes := by
  have h1 : buf.map Prod.fst = List.range buf.length := by simpa [Memory.wf] using h
  have h2 : ∀ (l : Memory) (base : Nat), l.map Prod.fst = List.range' base l.length → l = cellsFrom base (l.map Prod.snd) := by
    intro l
    induction l with
    | nil => intro base _; rfl
    | cons c l ih =>
      intro base hl
      simp only [List.map_cons, List.length_cons, List.range'_succ, List.cons.injEq] at hl
      simp only [List.map_cons, cellsFrom, ← hl.1, List.cons.injEq, true_and]
      rw [hl.1]
      exact ih (base + 1) hl.2
  exact h2 buf 0 (by rw [h1, List.range_eq_range'])

/-- Every append keeps the canonical form. -/
theorem Memory.wf_append {buf : Memory} (h : buf.wf = true) (xs : List Byte) : (buf.append xs).wf = true := by
  rw [Memory.eq_ofBytes_of_wf h, Memory.append_ofBytes]
  exact Memory.wf_ofBytes _

/-- Every write keeps the canonical form. -/
theorem Memory.wf_write {buf : Memory} (h : buf.wf = true) (n v : Nat) : (buf.write n v).wf = true :=
  Memory.wf_append h _

theorem find?_cellsFrom (base j : Nat) (xs : List Byte) :
    ((cellsFrom base xs).find? fun cell => cell.1 == j).map Prod.snd = if base ≤ j then xs[j - base]? else none := by
  induction xs generalizing base with
  | nil => simp [cellsFrom]
  | cons x xs ih =>
    by_cases h : base = j
    · simp [cellsFrom, h]
    · simp only [cellsFrom, List.find?_cons, beq_eq_false_iff_ne.mpr h, ih]
      by_cases h1 : base + 1 ≤ j
      · rw [if_pos h1, if_pos (by omega), show j - base = (j - (base + 1)) + 1 by omega]
        simp
      · rw [if_neg h1, if_neg (by omega)]

/-- `BUF[j]` of a sequence laid out from 0. -/
@[simp] theorem Memory.byteAt_ofBytes (xs : List Byte) (j : Nat) : (Memory.ofBytes xs).byteAt j = xs[j]? := by
  simp [Memory.byteAt, Memory.ofBytes, find?_cellsFrom]

/-- Reading a byte after appending: an index outside the bytes appended reads as before. -/
theorem Memory.byteAt_append_outside (buf : Memory) (xs : List Byte) {j : Nat}
    (h : j < buf.len ∨ buf.len + xs.length ≤ j) : (buf.append xs).byteAt j = buf.byteAt j := by
  have hz : ((cellsFrom buf.len xs).find? fun cell => cell.1 == j) = none := by
    have := find?_cellsFrom buf.len j xs
    rcases h with h | h
    · rw [if_neg (by omega)] at this
      simpa using this
    · rw [if_pos (by omega), List.getElem?_eq_none (by omega)] at this
      simpa using this
  simp only [Memory.byteAt, Memory.append, List.find?_append, hz, Option.or_none]

@[simp] theorem length_leBytes (n v : Nat) : (leBytes n v).length = n := by
  induction n generalizing v with
  | zero => rfl
  | succ n ih => simp [leBytes, ih]

/-- Byte j of `LE_n(v)` is `(v >> 8j) & 0xFF` (R12). -/
theorem getElem?_leBytes {n j : Nat} (v : Nat) (h : j < n) : (leBytes n v)[j]? = some (BitVec.ofNat 8 (v / 256 ^ j)) := by
  induction n generalizing v j with
  | zero => omega
  | succ n ih =>
    cases j with
    | zero => simp [leBytes]
    | succ j =>
      simp only [leBytes, List.getElem?_cons_succ]
      rw [ih _ (by omega), Nat.div_div_eq_div_mul, Nat.pow_succ, Nat.mul_comm]

/-- Little-endian bytes and values are inverse (R12, R52). -/
theorem leValue_leBytes (n v : Nat) : leValue (leBytes n v) = v % 256 ^ n := by
  induction n generalizing v with
  | zero => simp [leBytes, leValue, Nat.mod_one]
  | succ n ih =>
    simp only [leBytes, leValue, ih, BitVec.toNat_ofNat]
    rw [show 256 ^ (n + 1) = 256 * 256 ^ n by rw [Nat.pow_succ, Nat.mul_comm], Nat.mod_mul]

/-- Reading consecutive bytes of a sequence laid out from 0. -/
theorem Memory.readBytes_ofBytes (xs : List Byte) (j n : Nat) (h : j + n ≤ xs.length) :
    (Memory.ofBytes xs).readBytes j n = some ((xs.drop j).take n) := by
  induction n generalizing j with
  | zero => simp [Memory.readBytes]
  | succ n ih =>
    simp only [Memory.readBytes, Memory.byteAt_ofBytes]
    rw [ih (j + 1) (by omega), List.getElem?_eq_getElem (by omega)]
    rw [List.drop_eq_getElem_cons (show j < xs.length by omega)]
    rfl

/-- Reading past the end fails (R52). -/
theorem Memory.readBytes_ofBytes_none (xs : List Byte) (j n : Nat) (hn : 0 < n) (h : xs.length < j + n) :
    (Memory.ofBytes xs).readBytes j n = none := by
  induction n generalizing j with
  | zero => omega
  | succ n ih =>
    simp only [Memory.readBytes, Memory.byteAt_ofBytes]
    by_cases h1 : j < xs.length
    · rw [ih (j + 1) (by omega) (by omega)]
      simp
    · rw [List.getElem?_eq_none (by omega)]

/-- `MemRead(j, n)` answers exactly when the range lies inside (R52). -/
theorem Memory.read_ofBytes_isSome (xs : List Byte) (j n : Nat) (hn : 0 < n) :
    ((Memory.ofBytes xs).read j n).isSome = decide (j + n ≤ xs.length) := by
  by_cases h : j + n ≤ xs.length
  · simp [Memory.read, Memory.readBytes_ofBytes xs j n h, h]
  · simp [Memory.read, Memory.readBytes_ofBytes_none xs j n hn (by omega), h]

/-- The value of four little-endian bytes is their concatenation, the last one highest (R54). -/
theorem ofNat_leValue_four (x0 x1 x2 x3 : Byte) :
    BitVec.ofNat 32 (leValue [x0, x1, x2, x3]) = (x3 ++ x2) ++ (x1 ++ x0) := by
  apply BitVec.eq_of_toNat_eq
  have h0 := x0.isLt
  have h1 := x1.isLt
  have h2 := x2.isLt
  have h3 := x3.isLt
  simp only [leValue, BitVec.toNat_ofNat, BitVec.toNat_append, Nat.shiftLeft_eq]
  rw [← Nat.shiftLeft_eq, ← Nat.shiftLeft_eq, ← Nat.shiftLeft_eq]
  rw [← Nat.shiftLeft_add_eq_or_of_lt h0, ← Nat.shiftLeft_add_eq_or_of_lt h2]
  rw [← Nat.shiftLeft_add_eq_or_of_lt (b := x1.toNat <<< 8 + x0.toNat) (i := 16)
    (by rw [Nat.shiftLeft_eq]; omega)]
  simp only [Nat.shiftLeft_eq]
  omega

/-- The word LOADB reads (R120) of a sequence laid out from 0. -/
theorem Memory.wordAt_ofBytes (xs : List Byte) (j : Nat) (h : j + 4 ≤ xs.length) :
    (Memory.ofBytes xs).wordAt j
      = (xs.getD (j + 3) 0 ++ xs.getD (j + 2) 0) ++ (xs.getD (j + 1) 0 ++ xs.getD j 0) := by
  have h4 : (xs.drop j).take 4 = [xs.getD j 0, xs.getD (j + 1) 0, xs.getD (j + 2) 0, xs.getD (j + 3) 0] := by
    apply List.ext_getElem
    · simp; omega
    · intro n h1 h2
      simp at h1 h2
      have : n = 0 ∨ n = 1 ∨ n = 2 ∨ n = 3 := by omega
      rcases this with rfl | rfl | rfl | rfl <;> simp [List.getD_eq_getElem?_getD]
      all_goals rw [List.getElem?_eq_getElem (by omega)]; simp
  simp only [Memory.wordAt, Memory.read, Memory.readBytes_ofBytes xs j 4 h, h4, Option.map_some, Option.getD_some]
  exact ofNat_leValue_four _ _ _ _

/-- A block that lies inside the buffer has no bad word (R58). -/
theorem Memory.firstBadWord_ofBytes (xs : List Byte) (base : Nat) (h : base + 64 ≤ xs.length) :
    (Memory.ofBytes xs).firstBadWord base = none := by
  simp only [Memory.firstBadWord, List.find?_eq_none, List.mem_map, List.mem_range]
  rintro _ ⟨j, hj, rfl⟩
  have := Memory.read_ofBytes_isSome xs (base + 4 * j) 4 (by omega)
  rw [decide_eq_true (by omega)] at this
  rw [Option.isSome_iff_exists] at this
  obtain ⟨v, hv⟩ := this
  simp [hv]

end Sys2Proof.Machine
end

