-- ==== Sys2Proof/Laws/State.lean ====
section
/-!
SUPPORT. The small lemmas of the state's updates: one per field and update, and what the selected engine is after one.
-/

namespace Sys2Proof.Machine

@[simp] theorem Engine.withH_seq (e : Engine) (q : Quad) : (e.withH q).seq = e.seq := rfl
@[simp] theorem Engine.withH_buf (e : Engine) (q : Quad) : (e.withH q).buf = e.buf := rfl
@[simp] theorem Engine.withH_ol (e : Engine) (q : Quad) : (e.withH q).ol = e.ol := rfl
@[simp] theorem Engine.withH_ha (e : Engine) (q : Quad) : (e.withH q).ha = .holds q.a := rfl
@[simp] theorem Engine.withH_hb (e : Engine) (q : Quad) : (e.withH q).hb = .holds q.b := rfl
@[simp] theorem Engine.withH_hc (e : Engine) (q : Quad) : (e.withH q).hc = .holds q.c := rfl
@[simp] theorem Engine.withH_hd (e : Engine) (q : Quad) : (e.withH q).hd = .holds q.d := rfl
@[simp] theorem Engine.withH_a (e : Engine) (q : Quad) : (e.withH q).a = e.a := rfl
@[simp] theorem Engine.withH_b (e : Engine) (q : Quad) : (e.withH q).b = e.b := rfl
@[simp] theorem Engine.withH_c (e : Engine) (q : Quad) : (e.withH q).c = e.c := rfl
@[simp] theorem Engine.withH_d (e : Engine) (q : Quad) : (e.withH q).d = e.d := rfl
@[simp] theorem Engine.withH_m (e : Engine) (q : Quad) : (e.withH q).m = e.m := rfl
@[simp] theorem Engine.withH_blk (e : Engine) (q : Quad) : (e.withH q).blk = e.blk := rfl
@[simp] theorem Engine.withH_dout (e : Engine) (q : Quad) : (e.withH q).dout = e.dout := rfl
@[simp] theorem Engine.withH_faults (e : Engine) (q : Quad) : (e.withH q).faults = e.faults := rfl

@[simp] theorem Engine.withW_seq (e : Engine) (q : Quad) : (e.withW q).seq = e.seq := rfl
@[simp] theorem Engine.withW_buf (e : Engine) (q : Quad) : (e.withW q).buf = e.buf := rfl
@[simp] theorem Engine.withW_ol (e : Engine) (q : Quad) : (e.withW q).ol = e.ol := rfl
@[simp] theorem Engine.withW_ha (e : Engine) (q : Quad) : (e.withW q).ha = e.ha := rfl
@[simp] theorem Engine.withW_hb (e : Engine) (q : Quad) : (e.withW q).hb = e.hb := rfl
@[simp] theorem Engine.withW_hc (e : Engine) (q : Quad) : (e.withW q).hc = e.hc := rfl
@[simp] theorem Engine.withW_hd (e : Engine) (q : Quad) : (e.withW q).hd = e.hd := rfl
@[simp] theorem Engine.withW_a (e : Engine) (q : Quad) : (e.withW q).a = .holds q.a := rfl
@[simp] theorem Engine.withW_b (e : Engine) (q : Quad) : (e.withW q).b = .holds q.b := rfl
@[simp] theorem Engine.withW_c (e : Engine) (q : Quad) : (e.withW q).c = .holds q.c := rfl
@[simp] theorem Engine.withW_d (e : Engine) (q : Quad) : (e.withW q).d = .holds q.d := rfl
@[simp] theorem Engine.withW_m (e : Engine) (q : Quad) : (e.withW q).m = e.m := rfl
@[simp] theorem Engine.withW_blk (e : Engine) (q : Quad) : (e.withW q).blk = e.blk := rfl
@[simp] theorem Engine.withW_dout (e : Engine) (q : Quad) : (e.withW q).dout = e.dout := rfl
@[simp] theorem Engine.withW_faults (e : Engine) (q : Quad) : (e.withW q).faults = e.faults := rfl

@[simp] theorem Engine.appendBuf_seq (e : Engine) (buf : Memory) (n v : Nat) : (e.appendBuf buf n v).seq = e.seq := rfl
@[simp] theorem Engine.appendBuf_buf (e : Engine) (buf : Memory) (n v : Nat) : (e.appendBuf buf n v).buf = .holds (buf.write n v) := rfl
@[simp] theorem Engine.appendBuf_ol (e : Engine) (buf : Memory) (n v : Nat) : (e.appendBuf buf n v).ol = e.ol := rfl
@[simp] theorem Engine.appendBuf_ha (e : Engine) (buf : Memory) (n v : Nat) : (e.appendBuf buf n v).ha = e.ha := rfl
@[simp] theorem Engine.appendBuf_hb (e : Engine) (buf : Memory) (n v : Nat) : (e.appendBuf buf n v).hb = e.hb := rfl
@[simp] theorem Engine.appendBuf_hc (e : Engine) (buf : Memory) (n v : Nat) : (e.appendBuf buf n v).hc = e.hc := rfl
@[simp] theorem Engine.appendBuf_hd (e : Engine) (buf : Memory) (n v : Nat) : (e.appendBuf buf n v).hd = e.hd := rfl
@[simp] theorem Engine.appendBuf_a (e : Engine) (buf : Memory) (n v : Nat) : (e.appendBuf buf n v).a = e.a := rfl
@[simp] theorem Engine.appendBuf_b (e : Engine) (buf : Memory) (n v : Nat) : (e.appendBuf buf n v).b = e.b := rfl
@[simp] theorem Engine.appendBuf_c (e : Engine) (buf : Memory) (n v : Nat) : (e.appendBuf buf n v).c = e.c := rfl
@[simp] theorem Engine.appendBuf_d (e : Engine) (buf : Memory) (n v : Nat) : (e.appendBuf buf n v).d = e.d := rfl
@[simp] theorem Engine.appendBuf_m (e : Engine) (buf : Memory) (n v : Nat) : (e.appendBuf buf n v).m = e.m := rfl
@[simp] theorem Engine.appendBuf_blk (e : Engine) (buf : Memory) (n v : Nat) : (e.appendBuf buf n v).blk = e.blk := rfl
@[simp] theorem Engine.appendBuf_dout (e : Engine) (buf : Memory) (n v : Nat) : (e.appendBuf buf n v).dout = e.dout := rfl
@[simp] theorem Engine.appendBuf_faults (e : Engine) (buf : Memory) (n v : Nat) : (e.appendBuf buf n v).faults = e.faults := rfl

@[simp] theorem Engine.record_seq (e : Engine) (f : CoreFault) : (e.record f).seq = e.seq := rfl
@[simp] theorem Engine.record_buf (e : Engine) (f : CoreFault) : (e.record f).buf = e.buf := rfl
@[simp] theorem Engine.record_ol (e : Engine) (f : CoreFault) : (e.record f).ol = e.ol := rfl
@[simp] theorem Engine.record_ha (e : Engine) (f : CoreFault) : (e.record f).ha = e.ha := rfl
@[simp] theorem Engine.record_hb (e : Engine) (f : CoreFault) : (e.record f).hb = e.hb := rfl
@[simp] theorem Engine.record_hc (e : Engine) (f : CoreFault) : (e.record f).hc = e.hc := rfl
@[simp] theorem Engine.record_hd (e : Engine) (f : CoreFault) : (e.record f).hd = e.hd := rfl
@[simp] theorem Engine.record_a (e : Engine) (f : CoreFault) : (e.record f).a = e.a := rfl
@[simp] theorem Engine.record_b (e : Engine) (f : CoreFault) : (e.record f).b = e.b := rfl
@[simp] theorem Engine.record_c (e : Engine) (f : CoreFault) : (e.record f).c = e.c := rfl
@[simp] theorem Engine.record_d (e : Engine) (f : CoreFault) : (e.record f).d = e.d := rfl
@[simp] theorem Engine.record_m (e : Engine) (f : CoreFault) : (e.record f).m = e.m := rfl
@[simp] theorem Engine.record_blk (e : Engine) (f : CoreFault) : (e.record f).blk = e.blk := rfl
@[simp] theorem Engine.record_dout (e : Engine) (f : CoreFault) : (e.record f).dout = e.dout := rfl
@[simp] theorem Engine.record_faults (e : Engine) (f : CoreFault) : (e.record f).faults = if f ∈ e.faults then e.faults else e.faults ++ [f] := rfl

@[simp] theorem Engine.load_seq (e : Engine) (msg : List Byte) : (e.load msg).seq = enc 0x1#4 0#6 := rfl
@[simp] theorem Engine.load_buf (e : Engine) (msg : List Byte) : (e.load msg).buf = .holds (Memory.ofBytes msg) := rfl
@[simp] theorem Engine.load_ol (e : Engine) (msg : List Byte) : (e.load msg).ol = e.ol := rfl
@[simp] theorem Engine.load_ha (e : Engine) (msg : List Byte) : (e.load msg).ha = e.ha := rfl
@[simp] theorem Engine.load_hb (e : Engine) (msg : List Byte) : (e.load msg).hb = e.hb := rfl
@[simp] theorem Engine.load_hc (e : Engine) (msg : List Byte) : (e.load msg).hc = e.hc := rfl
@[simp] theorem Engine.load_hd (e : Engine) (msg : List Byte) : (e.load msg).hd = e.hd := rfl
@[simp] theorem Engine.load_a (e : Engine) (msg : List Byte) : (e.load msg).a = e.a := rfl
@[simp] theorem Engine.load_b (e : Engine) (msg : List Byte) : (e.load msg).b = e.b := rfl
@[simp] theorem Engine.load_c (e : Engine) (msg : List Byte) : (e.load msg).c = e.c := rfl
@[simp] theorem Engine.load_d (e : Engine) (msg : List Byte) : (e.load msg).d = e.d := rfl
@[simp] theorem Engine.load_m (e : Engine) (msg : List Byte) : (e.load msg).m = e.m := rfl
@[simp] theorem Engine.load_blk (e : Engine) (msg : List Byte) : (e.load msg).blk = e.blk := rfl
@[simp] theorem Engine.load_dout (e : Engine) (msg : List Byte) : (e.load msg).dout = e.dout := rfl
@[simp] theorem Engine.load_faults (e : Engine) (msg : List Byte) : (e.load msg).faults = e.faults := rfl

@[simp] theorem Engine.withSeq_seq (e : Engine) (w : SeqWord) : (e.withSeq w).seq = w := rfl
@[simp] theorem Engine.withSeq_buf (e : Engine) (w : SeqWord) : (e.withSeq w).buf = e.buf := rfl
@[simp] theorem Engine.withSeq_ol (e : Engine) (w : SeqWord) : (e.withSeq w).ol = e.ol := rfl
@[simp] theorem Engine.withSeq_ha (e : Engine) (w : SeqWord) : (e.withSeq w).ha = e.ha := rfl
@[simp] theorem Engine.withSeq_hb (e : Engine) (w : SeqWord) : (e.withSeq w).hb = e.hb := rfl
@[simp] theorem Engine.withSeq_hc (e : Engine) (w : SeqWord) : (e.withSeq w).hc = e.hc := rfl
@[simp] theorem Engine.withSeq_hd (e : Engine) (w : SeqWord) : (e.withSeq w).hd = e.hd := rfl
@[simp] theorem Engine.withSeq_a (e : Engine) (w : SeqWord) : (e.withSeq w).a = e.a := rfl
@[simp] theorem Engine.withSeq_b (e : Engine) (w : SeqWord) : (e.withSeq w).b = e.b := rfl
@[simp] theorem Engine.withSeq_c (e : Engine) (w : SeqWord) : (e.withSeq w).c = e.c := rfl
@[simp] theorem Engine.withSeq_d (e : Engine) (w : SeqWord) : (e.withSeq w).d = e.d := rfl
@[simp] theorem Engine.withSeq_m (e : Engine) (w : SeqWord) : (e.withSeq w).m = e.m := rfl
@[simp] theorem Engine.withSeq_blk (e : Engine) (w : SeqWord) : (e.withSeq w).blk = e.blk := rfl
@[simp] theorem Engine.withSeq_dout (e : Engine) (w : SeqWord) : (e.withSeq w).dout = e.dout := rfl
@[simp] theorem Engine.withSeq_faults (e : Engine) (w : SeqWord) : (e.withSeq w).faults = [] := rfl

@[simp] theorem State.setCur_params (s : State) (e : Engine) : (s.setCur e).params = s.params := rfl
@[simp] theorem State.setCur_engines (s : State) (e : Engine) : (s.setCur e).engines = s.engines.set s.sel e := rfl
@[simp] theorem State.setCur_sel (s : State) (e : Engine) : (s.setCur e).sel = s.sel := rfl
@[simp] theorem State.setCur_agenda (s : State) (e : Engine) : (s.setCur e).agenda = s.agenda := rfl
@[simp] theorem State.setCur_reply (s : State) (e : Engine) : (s.setCur e).reply = s.reply := rfl

@[simp] theorem State.take_params (s : State) (k : Nat) (rest : List Event) : (s.take k rest).params = s.params := rfl
@[simp] theorem State.take_engines (s : State) (k : Nat) (rest : List Event) : (s.take k rest).engines = s.engines := rfl
@[simp] theorem State.take_sel (s : State) (k : Nat) (rest : List Event) : (s.take k rest).sel = k := rfl
@[simp] theorem State.take_agenda (s : State) (k : Nat) (rest : List Event) : (s.take k rest).agenda = rest := rfl
@[simp] theorem State.take_reply (s : State) (k : Nat) (rest : List Event) : (s.take k rest).reply = s.reply := rfl

@[simp] theorem State.takeHost_params (s : State) (k : Nat) (rest : List Event) : (s.takeHost k rest).params = s.params := rfl
@[simp] theorem State.takeHost_engines (s : State) (k : Nat) (rest : List Event) : (s.takeHost k rest).engines = s.engines := rfl
@[simp] theorem State.takeHost_sel (s : State) (k : Nat) (rest : List Event) : (s.takeHost k rest).sel = k := rfl
@[simp] theorem State.takeHost_agenda (s : State) (k : Nat) (rest : List Event) : (s.takeHost k rest).agenda = rest := rfl
@[simp] theorem State.takeHost_reply (s : State) (k : Nat) (rest : List Event) : (s.takeHost k rest).reply = .nothing := rfl

/-- The selected engine exists exactly when the selection is in range. -/
theorem State.cur_eq_some {s : State} {e : Engine} : s.cur = some e ↔ ∃ h : s.sel < s.engines.length, s.engines[s.sel] = e := by
  simp [State.cur, List.getElem?_eq_some_iff]

theorem State.sel_lt {s : State} {e : Engine} (h : s.cur = some e) : s.sel < s.engines.length :=
  (State.cur_eq_some.mp h).1

theorem State.cur_eq_none {s : State} : s.cur = none ↔ s.engines.length ≤ s.sel := by
  simp [State.cur]

/-- Putting an engine back and looking at it. -/
theorem State.cur_setCur {s : State} {e : Engine} (h : s.cur = some e) (e' : Engine) : (s.setCur e').cur = some e' := by
  simp [State.cur, State.sel_lt h]

/-- Putting an engine back leaves the others. -/
theorem State.engines_setCur_ne (s : State) (e : Engine) {k : Nat} (h : k ≠ s.sel) :
    (s.setCur e).engines[k]? = s.engines[k]? := by
  simp [Ne.symm h]

@[simp] theorem State.length_setCur (s : State) (e : Engine) : (s.setCur e).engines.length = s.engines.length := by
  simp

/-- Putting the selected engine back unchanged changes nothing. -/
theorem State.setCur_self {s : State} {e : Engine} (h : s.cur = some e) : s.setCur e = s := by
  obtain ⟨hlt, rfl⟩ := State.cur_eq_some.mp h
  cases s
  simp [State.setCur]

@[simp] theorem State.setCur_setCur (s : State) (e e' : Engine) : (s.setCur e).setCur e' = s.setCur e' := by
  simp [State.setCur]

/-- Selecting an engine and looking at it. -/
@[simp] theorem State.cur_take (s : State) (k : Nat) (rest : List Event) : (s.take k rest).cur = s.engines[k]? := rfl

@[simp] theorem State.cur_takeHost (s : State) (k : Nat) (rest : List Event) :
    (s.takeHost k rest).cur = s.engines[k]? := rfl

@[simp] theorem Engine.read_holds {α : Type} (e : Engine) (name : RegName) (v : α) : e.read name (.holds v) = .ok v := rfl

@[simp] theorem Engine.read_unwritten {α : Type} (e : Engine) (name : RegName) :
    e.read (α := α) name .unwritten = .error (.unwrittenRead e.seq name) := rfl

/-- A read answers a value exactly when the register holds it. -/
theorem Engine.read_eq_ok {α : Type} {e : Engine} {name : RegName} {r : Reg α} {v : α} :
    e.read name r = .ok v ↔ r = .holds v := by
  cases r <;> simp

/-- What WAIT leaves besides the agenda. -/
@[simp] theorem State.cur_takeWait (s : State) (k : Nat) (rest : List Event) : (s.takeWait k rest).cur = s.engines[k]? := by
  unfold State.takeWait
  split <;> try split
  all_goals rfl

@[simp] theorem State.takeWait_engines (s : State) (k : Nat) (rest : List Event) :
    (s.takeWait k rest).engines = s.engines := by
  unfold State.takeWait
  split <;> try split
  all_goals rfl

@[simp] theorem State.takeWait_params (s : State) (k : Nat) (rest : List Event) :
    (s.takeWait k rest).params = s.params := by
  unfold State.takeWait
  split <;> try split
  all_goals rfl

@[simp] theorem State.takeWait_sel (s : State) (k : Nat) (rest : List Event) : (s.takeWait k rest).sel = k := by
  unfold State.takeWait
  split <;> try split
  all_goals rfl

@[simp] theorem State.takeWait_reply (s : State) (k : Nat) (rest : List Event) :
    (s.takeWait k rest).reply = .nothing := by
  unfold State.takeWait
  split <;> try split
  all_goals rfl

end Sys2Proof.Machine
end

