-- ==== Sys2Proof/Laws/Ops.lean ====
section
/-!
SUPPORT. What each shared operation and each meaning can do, said once: the later proofs cite these and do not unfold.
-/

namespace Sys2Proof.Machine

/-- Everything a micro-operation can do when the machine goes on: a fault joins the record and nothing else changes (R223),
or its writes happen and `SEQ` moves on (R183). -/
theorem microOp_next {op : Instr} {perform : Params → Engine → Except CoreFault Engine} {s t : State}
    (h : microOp op perform s = .next t) :
    ∃ e, s.cur = some e ∧
      ((∃ f, t = s.setCur (e.record f)) ∨
       ∃ e' w, perform s.params e = .ok e' ∧ nextSeq op e' = .ok w ∧ t = s.setCur { e' with seq := w }) := by
  unfold microOp at h
  split at h
  · cases h
  · rename_i e he
    refine ⟨e, he, ?_⟩
    split at h
    · simp only [State.takeFault, he, Host.Outcome.next.injEq] at h
      exact .inl ⟨_, h.symm⟩
    · rename_i e' hp
      split at h
      · simp only [State.takeFault, he, Host.Outcome.next.injEq] at h
        exact .inl ⟨_, h.symm⟩
      · rename_i w hw
        exact .inr ⟨e', w, hp, hw, (Host.Outcome.next.inj h).symm⟩

/-- A micro-operation whose reads succeed completes (R183). -/
theorem microOp_of_ok {op : Instr} {perform : Params → Engine → Except CoreFault Engine} {s : State} {e e' : Engine}
    {w : SeqWord} (hc : s.cur = some e) (hp : perform s.params e = .ok e') (hn : nextSeq op e' = .ok w) :
    microOp op perform s = .next (s.setCur { e' with seq := w }) := by
  simp [microOp, hc, hp, hn]

/-- A micro-operation whose writes fault records the fault and nothing else (R223). -/
theorem microOp_of_error {op : Instr} {perform : Params → Engine → Except CoreFault Engine} {s : State} {e : Engine}
    {f : CoreFault} (hc : s.cur = some e) (hp : perform s.params e = .error f) :
    microOp op perform s = .next (s.setCur (e.record f)) := by
  simp [microOp, hc, hp, State.takeFault]

/-- Taking a fault on an engine that exists (R223). -/
theorem takeFault_of_cur {s : State} {e : Engine} (hc : s.cur = some e) (f : CoreFault) :
    s.takeFault f = .next (s.setCur (e.record f)) := by
  simp [State.takeFault, hc]

/-- The bind of two reads, for taking a meaning apart. -/
theorem Except.bind_eq_ok {ε α β : Type} {x : Except ε α} {f : α → Except ε β} {b : β} :
    (x >>= f) = .ok b ↔ ∃ a, x = .ok a ∧ f a = .ok b := by
  cases x <;> simp [bind, Except.bind]

@[simp] theorem Except.ok_bind {ε α β : Type} (a : α) (f : α → Except ε β) : ((.ok a : Except ε α) >>= f) = f a := rfl

@[simp] theorem Except.error_bind {ε α β : Type} (x : ε) (f : α → Except ε β) :
    ((.error x : Except ε α) >>= f) = .error x := rfl

/-- Reading the running state. -/
theorem Engine.readH_eq_ok {e : Engine} {q : Quad} :
    e.readH = .ok q ↔ e.ha = .holds q.a ∧ e.hb = .holds q.b ∧ e.hc = .holds q.c ∧ e.hd = .holds q.d := by
  simp only [Engine.readH, Except.bind_eq_ok, Engine.read_eq_ok, Except.ok.injEq]
  constructor
  · rintro ⟨a, ha, b, hb, c, hc, d, hd, rfl⟩
    exact ⟨ha, hb, hc, hd⟩
  · rintro ⟨ha, hb, hc, hd⟩
    exact ⟨_, ha, _, hb, _, hc, _, hd, rfl⟩

/-- INIT's writes (R100). -/
theorem performInit_eq_ok {p : Params} {e e' : Engine} :
    performInit p e = .ok e' ↔ ∃ buf, e.buf = .holds buf ∧
      { e.withH iv with ol := .holds (BitVec.ofNat 64 buf.len), blk := .holds 0 } = e' := by
  simp only [performInit, Except.bind_eq_ok, Engine.read_eq_ok, Except.ok.injEq]

/-- PADM's write (R101). -/
theorem performPadm_eq_ok {p : Params} {e e' : Engine} :
    performPadm p e = .ok e' ↔ ∃ buf, e.buf = .holds buf ∧ e.appendBuf buf 1 0x80 = e' := by
  simp only [performPadm, Except.bind_eq_ok, Engine.read_eq_ok, Except.ok.injEq]

/-- PADZ's write (R102). -/
theorem performPadz_eq_ok {p : Params} {e e' : Engine} :
    performPadz p e = .ok e' ↔ ∃ buf, e.buf = .holds buf ∧ e.appendBuf buf 1 0x00 = e' := by
  simp only [performPadz, Except.bind_eq_ok, Engine.read_eq_ok, Except.ok.injEq]

/-- APLEN's write (R103). -/
theorem performAplen_eq_ok {p : Params} {e e' : Engine} :
    performAplen p e = .ok e' ↔ ∃ ol, e.ol = .holds ol ∧ ∃ buf, e.buf = .holds buf ∧
      e.appendBuf buf 8 (bitLength ol).toNat = e' := by
  simp only [performAplen, Except.bind_eq_ok, Engine.read_eq_ok, Except.ok.injEq]

/-- LOADB's writes (R120). -/
theorem performLoadb_eq_ok {p : Params} {e e' : Engine} :
    performLoadb p e = .ok e' ↔ ∃ blk, e.blk = .holds blk ∧ ∃ buf, e.buf = .holds buf ∧ ∃ h, e.readH = .ok h ∧
      buf.firstBadWord (64 * blk) = none ∧ { e.withW h with m := blockWords buf (64 * blk) } = e' := by
  simp only [performLoadb, Except.bind_eq_ok, Engine.read_eq_ok]
  constructor
  · rintro ⟨blk, h1, buf, h2, h, h3, h4⟩
    split at h4
    · cases h4
    · exact ⟨blk, h1, buf, h2, h, h3, ‹_›, Except.ok.inj h4⟩
  · rintro ⟨blk, h1, buf, h2, h, h3, h4, rfl⟩
    exact ⟨blk, h1, buf, h2, h, h3, by simp [h4]⟩

/-- A round's writes (R144). -/
theorem roundStep_eq_ok {aux : Word → Word → Word → Word} {i : RoundIndex} {p : Params} {e e' : Engine} :
    roundStep aux i p e = .ok e' ↔ ∃ q x, e.a = .holds q.a ∧ e.b = .holds q.b ∧ e.c = .holds q.c ∧ e.d = .holds q.d ∧
      e.m[msgIndex i] = .holds x ∧ ∃ q', roundQuad aux i x q = some q' ∧ e.withW q' = e' := by
  simp only [roundStep, Except.bind_eq_ok, Engine.read_eq_ok]
  constructor
  · rintro ⟨b, hb, c, hc, d, hd, a, ha, x, hx, h⟩
    refine ⟨⟨a, b, c, d⟩, x, ha, hb, hc, hd, hx, ?_⟩
    split at h
    · cases h
    · exact ⟨_, ‹_›, Except.ok.inj h⟩
  · rintro ⟨⟨a, b, c, d⟩, x, ha, hb, hc, hd, hx, q', h, rfl⟩
    exact ⟨b, hb, c, hc, d, hd, a, ha, x, hx, by simp [h]⟩

/-- ACCUM's writes (R160). -/
theorem performAccum_eq_ok {p : Params} {e e' : Engine} :
    performAccum p e = .ok e' ↔ ∃ (h w : Quad) (blk : Nat), e.ha = .holds h.a ∧ e.hb = .holds h.b ∧ e.hc = .holds h.c ∧ e.hd = .holds h.d ∧
      e.a = .holds w.a ∧ e.b = .holds w.b ∧ e.c = .holds w.c ∧ e.d = .holds w.d ∧ e.blk = .holds blk ∧
      { e.withH (h.add w) with blk := .holds (blkSucc p blk) } = e' := by
  simp only [performAccum, Except.bind_eq_ok, Engine.read_eq_ok, Except.ok.injEq]
  constructor
  · rintro ⟨ha, h1, a, h2, hb, h3, b, h4, hc, h5, c, h6, hd, h7, d, h8, blk, h9, rfl⟩
    exact ⟨⟨ha, hb, hc, hd⟩, ⟨a, b, c, d⟩, blk, h1, h3, h5, h7, h2, h4, h6, h8, h9, rfl⟩
  · rintro ⟨⟨ha, hb, hc, hd⟩, ⟨a, b, c, d⟩, blk, h1, h3, h5, h7, h2, h4, h6, h8, h9, rfl⟩
    exact ⟨ha, h1, a, h2, hb, h3, b, h4, hc, h5, c, h6, hd, h7, d, h8, blk, h9, rfl⟩

/-- SERIAL's writes (R170). -/
theorem performSerial_eq_ok {p : Params} {e e' : Engine} :
    performSerial p e = .ok e' ↔ ∃ h, e.readH = .ok h ∧ { e with dout := (digestChars h).map .holds } = e' := by
  simp only [performSerial, Except.bind_eq_ok, Except.ok.injEq]

/-- START when the machine goes on (R200, R205). -/
theorem execStart_next {msg : List Byte} {s t : State} (h : execStart msg s = .next t) :
    ∃ e, s.cur = some e ∧
      ((s.params.admits msg.length = false ∧ t = s) ∨
       (s.params.admits msg.length = true ∧ busy e.seq = true ∧ t = s.setCur (e.record (.startWhileBusy e.seq 0x01))) ∨
       (s.params.admits msg.length = true ∧ busy e.seq = false ∧ t = s.setCur (e.load msg))) := by
  unfold execStart at h
  split at h
  · cases h
  · rename_i e he
    refine ⟨e, he, ?_⟩
    split at h
    · rename_i ha
      split at h
      · rename_i hb
        rw [takeFault_of_cur he] at h
        exact .inr (.inl ⟨ha, hb, (Host.Outcome.next.inj h).symm⟩)
      · rename_i hb
        exact .inr (.inr ⟨ha, by simpa using hb, (Host.Outcome.next.inj h).symm⟩)
    · rename_i ha
      exact .inl ⟨by simpa using ha, (Host.Outcome.next.inj h).symm⟩

/-- RDSTAT when the machine goes on (R201). -/
theorem execRdstat_next {s t : State} (h : execRdstat s = .next t) :
    ∃ e, s.cur = some e ∧ t = { s with reply := .status (statusOf e.seq) } := by
  unfold execRdstat at h
  split at h
  · cases h
  · exact ⟨_, ‹_›, (Host.Outcome.next.inj h).symm⟩

/-- RDDIG when the machine goes on (R202, R34). -/
theorem execRddig_next {s t : State} (h : execRddig s = .next t) :
    ∃ e, s.cur = some e ∧
      ((∃ f, t = s.setCur (e.record f)) ∨
       (isDone e.seq = true ∧ e.firstUnwrittenChar = none ∧ t = { s with reply := .digest e.doutChars })) := by
  unfold execRddig at h
  split at h
  · cases h
  · rename_i e he
    refine ⟨e, he, ?_⟩
    split at h
    · split at h
      · rw [takeFault_of_cur he] at h
        exact .inl ⟨_, (Host.Outcome.next.inj h).symm⟩
      · exact .inr ⟨‹_›, ‹_›, (Host.Outcome.next.inj h).symm⟩
    · rw [takeFault_of_cur he] at h
      exact .inl ⟨_, (Host.Outcome.next.inj h).symm⟩

/-- The waiting states when the machine goes on (R180, R181). -/
theorem noStep_next {s t : State} (h : noStep s = .next t) : (∃ e, s.cur = some e) ∧ t = s := by
  unfold noStep at h
  split at h
  · cases h
  · exact ⟨⟨_, ‹_›⟩, (Host.Outcome.next.inj h).symm⟩

end Sys2Proof.Machine
end

