-- ==== Sys2Proof/Laws/Operands.lean ====
section
/-!
SUPPORT. The values a round and APLEN compute (spec rules R103, R131, R134, R144).
-/

namespace Sys2Proof.Machine

/-- Inside 1..31 the spec's rotation is the rotation of the word (R134). -/
theorem rotl32_eq (x : Word) (n : Nat) (h1 : 1 ≤ n) (h2 : n ≤ 31) : rotl32 x n = some (x.rotateLeft n) := by
  simp [rotl32, h1, h2, BitVec.rotateLeft, BitVec.rotateLeftAux, Nat.mod_eq_of_lt (show n < 32 by omega)]

/-- No table entry reaches the rotation guard (R131). -/
theorem shiftAmount_range : ∀ i : RoundIndex, 1 ≤ shiftAmount i ∧ shiftAmount i ≤ 31 := by decide

/-- A round always has its four new words (R144). -/
theorem roundQuad_eq (aux : Word → Word → Word → Word) (i : RoundIndex) (x : Word) (q : Quad) :
    roundQuad aux i x q = some ⟨q.d, q.b + (roundSum aux i x q).rotateLeft (shiftAmount i), q.b, q.c⟩ := by
  simp only [roundQuad, rotl32_eq _ _ (shiftAmount_range i).1 (shiftAmount_range i).2]

/-- The bit length as a number (R103). -/
theorem bitLength_toNat (ol : DWord) : (bitLength ol).toNat = ol.toNat * 8 % 2 ^ 64 := by
  simp [bitLength]

end Sys2Proof.Machine
end

