-- ==== Sys2Proof/Laws/Exec.lean ====
section
/-!
SUPPORT. What `exec` can do, over all instructions at once: the proofs about whole steps cite `exec_next_cases` and do not
split over the sixteen arms.
-/

namespace Sys2Proof.Machine

/-- The writes of a micro-operation, for the eleven that have a core step (R183's `perform`). -/
def performOf : Instr → Option (Params → Engine → Except CoreFault Engine)
  | .idle => none
  | .init => some performInit
  | .padm => some performPadm
  | .padz => some performPadz
  | .aplen => some performAplen
  | .loadb => some performLoadb
  | .roundf i => some (roundStep auxF i)
  | .roundg i => some (roundStep auxG i)
  | .roundh i => some (roundStep auxH i)
  | .roundi i => some (roundStep auxI i)
  | .accum => some performAccum
  | .serial => some performSerial
  | .done => none
  | .start _ => none
  | .rdstat => none
  | .rddig => none

/-- Those eleven are one operation. -/
theorem exec_eq_microOp {i : Instr} {perform : Params → Engine → Except CoreFault Engine}
    (h : performOf i = some perform) (s : State) : exec i s = microOp i perform s := by
  cases i <;> simp only [performOf, Option.some.injEq, reduceCtorEq] at h <;> subst h <;> rfl

/-- Everything an instruction can do when the machine goes on: a fault joins the record and nothing else changes; the
writes of a micro-operation happen and `SEQ` moves on; nothing changes; START loads a message; a read answers the host. -/
theorem exec_next_cases {i : Instr} {s t : State} (h : exec i s = .next t) :
    ∃ e, s.cur = some e ∧
      ((∃ f, t = s.setCur (e.record f)) ∨
       (∃ perform e' w, performOf i = some perform ∧ perform s.params e = .ok e' ∧ nextSeq i e' = .ok w ∧
          t = s.setCur { e' with seq := w }) ∨
       ((i = .idle ∨ i = .done ∨ ∃ msg, i = .start msg ∧ s.params.admits msg.length = false) ∧ t = s) ∨
       (∃ msg, i = .start msg ∧ s.params.admits msg.length = true ∧ busy e.seq = false ∧ t = s.setCur (e.load msg)) ∨
       (i = .rdstat ∧ t = { s with reply := .status (statusOf e.seq) }) ∨
       (i = .rddig ∧ isDone e.seq = true ∧ e.firstUnwrittenChar = none ∧
          t = { s with reply := .digest e.doutChars })) := by
  rcases hp : performOf i with _ | perform
  · cases i <;> simp only [performOf, reduceCtorEq] at hp
    case idle =>
      obtain ⟨⟨e, he⟩, ht⟩ := noStep_next h
      exact ⟨e, he, .inr (.inr (.inl ⟨.inl rfl, ht⟩))⟩
    case done =>
      obtain ⟨⟨e, he⟩, ht⟩ := noStep_next h
      exact ⟨e, he, .inr (.inr (.inl ⟨.inr (.inl rfl), ht⟩))⟩
    case start msg =>
      obtain ⟨e, he, ⟨ha, ht⟩ | ⟨-, -, ht⟩ | ⟨ha, hb, ht⟩⟩ := execStart_next h
      · exact ⟨e, he, .inr (.inr (.inl ⟨.inr (.inr ⟨msg, rfl, ha⟩), ht⟩))⟩
      · exact ⟨e, he, .inl ⟨_, ht⟩⟩
      · exact ⟨e, he, .inr (.inr (.inr (.inl ⟨msg, rfl, ha, hb, ht⟩)))⟩
    case rdstat =>
      obtain ⟨e, he, ht⟩ := execRdstat_next h
      exact ⟨e, he, .inr (.inr (.inr (.inr (.inl ⟨rfl, ht⟩))))⟩
    case rddig =>
      obtain ⟨e, he, ht | ⟨hd, hn, ht⟩⟩ := execRddig_next h
      · exact ⟨e, he, .inl ht⟩
      · exact ⟨e, he, .inr (.inr (.inr (.inr (.inr ⟨rfl, hd, hn, ht⟩))))⟩
  · rw [exec_eq_microOp hp] at h
    obtain ⟨e, he, ht | ⟨e', w, h1, h2, ht⟩⟩ := microOp_next h
    · exact ⟨e, he, .inl ht⟩
    · exact ⟨e, he, .inr (.inl ⟨perform, e', w, rfl, h1, h2, ht⟩)⟩

/-- An instruction changes the selected engine and the reply, and nothing else of the machine (R40). -/
theorem exec_next_shape {i : Instr} {s t : State} (h : exec i s = .next t) :
    ∃ e e' r, s.cur = some e ∧ t = { s.setCur e' with reply := r } := by
  obtain ⟨e, he, ⟨f, rfl⟩ | ⟨p, e', w, -, -, -, rfl⟩ | ⟨-, rfl⟩ | ⟨msg, -, -, -, rfl⟩ | ⟨-, rfl⟩ | ⟨-, -, -, rfl⟩⟩ :=
    exec_next_cases h
  · exact ⟨e, _, s.reply, he, rfl⟩
  · exact ⟨e, _, s.reply, he, rfl⟩
  · exact ⟨e, e, t.reply, he, by rw [State.setCur_self he]⟩
  · exact ⟨e, _, s.reply, he, rfl⟩
  · exact ⟨e, e, _, he, by rw [State.setCur_self he]⟩
  · exact ⟨e, e, _, he, by rw [State.setCur_self he]⟩

/-- Running an instruction on an engine that exists never stops the machine: it answers a next state. -/
theorem exec_of_cur (i : Instr) {s : State} {e : Engine} (hc : s.cur = some e) : ∃ t, exec i s = .next t := by
  rcases hp : performOf i with _ | perform
  · cases i <;> simp only [performOf, reduceCtorEq] at hp
    case idle => exact ⟨s, by simp [exec, execIdle, noStep, hc]⟩
    case done => exact ⟨s, by simp [exec, execDone, noStep, hc]⟩
    case start msg =>
      simp only [exec, execStart, hc, takeFault_of_cur hc]
      split
      · split <;> exact ⟨_, rfl⟩
      · exact ⟨_, rfl⟩
    case rdstat => exact ⟨{ s with reply := .status (statusOf e.seq) }, by simp only [exec, execRdstat, hc]⟩
    case rddig =>
      simp only [exec, execRddig, hc, takeFault_of_cur hc]
      split
      · split <;> exact ⟨_, rfl⟩
      · exact ⟨_, rfl⟩
  · rw [exec_eq_microOp hp]
    simp only [microOp, hc, takeFault_of_cur hc]
    split
    · exact ⟨_, rfl⟩
    · split <;> exact ⟨_, rfl⟩

/-- What an instruction does to the selected engine, case by case, with the whole next state. -/
theorem exec_engine_cases {i : Instr} {s t : State} {e e' : Engine} (h : exec i s = .next t) (hc : s.cur = some e)
    (hc' : t.cur = some e') :
    (∃ f, e' = e.record f ∧ t = s.setCur e') ∨
    (∃ perform e1 w, performOf i = some perform ∧ perform s.params e = .ok e1 ∧ nextSeq i e1 = .ok w ∧
      e' = { e1 with seq := w } ∧ t = s.setCur e') ∨
    ((i = .idle ∨ i = .done ∨ ∃ msg, i = .start msg ∧ s.params.admits msg.length = false) ∧ e' = e ∧ t = s) ∨
    (∃ msg, i = .start msg ∧ s.params.admits msg.length = true ∧ busy e.seq = false ∧ e' = e.load msg ∧
      t = s.setCur e') ∨
    (i = .rdstat ∧ e' = e ∧ t = { s with reply := .status (statusOf e.seq) }) ∨
    (i = .rddig ∧ e' = e ∧ isDone e.seq = true ∧ e.firstUnwrittenChar = none ∧
      t = { s with reply := .digest e.doutChars }) := by
  obtain ⟨e0, he, hh⟩ := exec_next_cases h
  rw [hc] at he
  cases he
  rcases hh with ⟨f, rfl⟩ | ⟨p, e1, w, h1, h2, h3, rfl⟩ | ⟨h1, rfl⟩ | ⟨msg, h1, h2, h3, rfl⟩ | ⟨h1, rfl⟩ | ⟨h1, h2, h3, rfl⟩
  · rw [State.cur_setCur hc] at hc'
    cases hc'
    exact .inl ⟨f, rfl, rfl⟩
  · rw [State.cur_setCur hc] at hc'
    cases hc'
    exact .inr (.inl ⟨p, e1, w, h1, h2, h3, rfl, rfl⟩)
  · rw [hc] at hc'
    cases hc'
    exact .inr (.inr (.inl ⟨h1, rfl, rfl⟩))
  · rw [State.cur_setCur hc] at hc'
    cases hc'
    exact .inr (.inr (.inr (.inl ⟨msg, h1, h2, h3, rfl, rfl⟩)))
  · have : s.cur = some e' := hc'
    rw [hc] at this
    cases this
    exact .inr (.inr (.inr (.inr (.inl ⟨h1, rfl, rfl⟩))))
  · have : s.cur = some e' := hc'
    rw [hc] at this
    cases this
    exact .inr (.inr (.inr (.inr (.inr ⟨h1, rfl, h2, h3, rfl⟩))))

/-- A micro-operation's own writes change neither `SEQ` nor the fault record (R183, R223). -/
theorem perform_seq_faults {i : Instr} {perform : Params → Engine → Except CoreFault Engine} {p : Params} {e e1 : Engine}
    (hp : performOf i = some perform) (h : perform p e = .ok e1) : e1.seq = e.seq ∧ e1.faults = e.faults := by
  cases i <;> simp only [performOf, reduceCtorEq, Option.some.injEq] at hp <;> subst hp
  case init => obtain ⟨b, _, rfl⟩ := performInit_eq_ok.mp h; exact ⟨rfl, rfl⟩
  case padm => obtain ⟨b, _, rfl⟩ := performPadm_eq_ok.mp h; exact ⟨rfl, rfl⟩
  case padz => obtain ⟨b, _, rfl⟩ := performPadz_eq_ok.mp h; exact ⟨rfl, rfl⟩
  case aplen => obtain ⟨_, _, b, _, rfl⟩ := performAplen_eq_ok.mp h; exact ⟨rfl, rfl⟩
  case loadb => obtain ⟨_, _, b, _, _, _, _, rfl⟩ := performLoadb_eq_ok.mp h; exact ⟨rfl, rfl⟩
  case accum => obtain ⟨_, _, _, _, _, _, _, _, _, _, _, _, rfl⟩ := performAccum_eq_ok.mp h; exact ⟨rfl, rfl⟩
  case serial => obtain ⟨_, _, rfl⟩ := performSerial_eq_ok.mp h; exact ⟨rfl, rfl⟩
  all_goals obtain ⟨_, _, _, _, _, _, _, _, _, rfl⟩ := roundStep_eq_ok.mp h; exact ⟨rfl, rfl⟩

/-- The next-operation function answers a legal word, or the `SEQ` there was where it has no row (R182). -/
theorem nextSeq_legal {i : Instr} {e : Engine} {w : SeqWord} (h : nextSeq i e = .ok w) :
    w = e.seq ∨ ∃ op, decodeSeq w = .ok op := by
  have hr : ∀ ri, ∃ op, decodeSeq (nextRound ri) = .ok op := by
    intro ri
    unfold nextRound
    split <;> exact ⟨_, by simp; rfl⟩
  have hp : ∀ b, ∃ op, decodeSeq (nextPad b) = .ok op := by
    intro b
    unfold nextPad
    split <;> exact ⟨_, by simp; rfl⟩
  cases i <;> simp only [nextSeq, Except.bind_eq_ok, Except.ok.injEq] at h
  case idle => exact .inl h.symm
  case done => exact .inl h.symm
  case start => exact .inl h.symm
  case rdstat => exact .inl h.symm
  case rddig => exact .inl h.symm
  case padm => obtain ⟨b, _, rfl⟩ := h; exact .inr (hp b)
  case padz => obtain ⟨b, _, rfl⟩ := h; exact .inr (hp b)
  case roundf r => subst h; exact .inr (hr r)
  case roundg r => subst h; exact .inr (hr r)
  case roundh r => subst h; exact .inr (hr r)
  case roundi r => subst h; exact .inr (hr r)
  case accum =>
    obtain ⟨b, _, c, _, rfl⟩ := h
    split <;> exact .inr ⟨_, by simp; rfl⟩
  all_goals subst h; exact .inr ⟨_, by simp; rfl⟩

/-- What the record holds after a fault (R39). -/
theorem Engine.mem_faults_record {e : Engine} {f g : CoreFault} :
    g ∈ (e.record f).faults ↔ g ∈ e.faults ∨ g = f := by
  simp only [Engine.record_faults]
  split
  · constructor
    · exact .inl
    · rintro (h | rfl)
      · exact h
      · assumption
  · simp

/-- The record stays a set (R39). -/
theorem Engine.nodup_faults_record {e : Engine} {f : CoreFault} (h : e.faults.Nodup) : (e.record f).faults.Nodup := by
  simp only [Engine.record_faults]
  split
  · exact h
  · refine List.nodup_append.mpr ⟨h, by simp, ?_⟩
    rintro a ha b hb rfl
    simp at hb
    subst hb
    contradiction

/-- A round on the working words `q` and the message word `x` completes (R144); `i` is its instruction. -/
theorem exec_round {i : Instr} {aux : Word → Word → Word → Word} {ri : RoundIndex} {s : State} {e : Engine} {q : Quad}
    {x : Word} (hp : performOf i = some (roundStep aux ri)) (hn : ∀ e', nextSeq i e' = .ok (nextRound ri))
    (hc : s.cur = some e) (ha : e.a = .holds q.a) (hb : e.b = .holds q.b) (hcc : e.c = .holds q.c)
    (hd : e.d = .holds q.d) (hm : e.m[msgIndex ri] = .holds x) :
    exec i s = .next (s.setCur { e.withW ⟨q.d, q.b + (roundSum aux ri x q).rotateLeft (shiftAmount ri), q.b, q.c⟩ with
      seq := nextRound ri }) := by
  rw [exec_eq_microOp hp]
  exact microOp_of_ok hc (roundStep_eq_ok.mpr ⟨q, x, ha, hb, hcc, hd, hm, _, roundQuad_eq .., rfl⟩) (hn _)

end Sys2Proof.Machine
end

