-- ==== Sys2Proof/Laws/PerInstr.lean ====
section
/-!
SUPPORT. The family TableRow: the word the encoder writes for an instruction meets the match and the mask of its row of
spec/opcode_table.json (spec rule R82).
-/

namespace Sys2Proof.Laws.TableRow

/-- The encoded word as the table numbers its bits, with its width; a payload is no part of it. -/
def tableWord : Encoded → Nat × Nat
  | .seq w => (16, w.toNat)
  | .host code _ => (8, code.toNat)

/-- The row's width, match and mask. -/
def row : Instr → Nat × Nat × Nat
  | .idle => (16, 0x0000, 0xFFFF)
  | .init => (16, 0x1000, 0xFFFF)
  | .padm => (16, 0x2000, 0xFFFF)
  | .padz => (16, 0x3000, 0xFFFF)
  | .aplen => (16, 0x4000, 0xFFFF)
  | .loadb => (16, 0x5000, 0xFFFF)
  | .roundf _ => (16, 0x6000, 0xFFF0)
  | .roundg _ => (16, 0x6010, 0xFFF0)
  | .roundh _ => (16, 0x6020, 0xFFF0)
  | .roundi _ => (16, 0x6030, 0xFFF0)
  | .accum => (16, 0x7000, 0xFFFF)
  | .serial => (16, 0x8000, 0xFFFF)
  | .done => (16, 0x9000, 0xFFFF)
  | .start _ => (8, 0x01, 0xFF)
  | .rdstat => (8, 0x02, 0xFF)
  | .rddig => (8, 0x03, 0xFF)

/-- A well-formed instruction's word has its row's width and, under its row's mask, its row's match. -/
def Statement (i : Instr) : Prop :=
  i.wellFormed = true → (tableWord (encode i)).1 = (row i).1 ∧ (tableWord (encode i)).2 &&& (row i).2.2 = (row i).2.1

theorem idle : Statement .idle := by unfold Statement; decide
theorem init : Statement .init := by unfold Statement; decide
theorem padm : Statement .padm := by unfold Statement; decide
theorem padz : Statement .padz := by unfold Statement; decide
theorem aplen : Statement .aplen := by unfold Statement; decide
theorem loadb : Statement .loadb := by unfold Statement; decide
theorem roundf (i : RoundIndex) : Statement (.roundf i) := by
  revert i
  unfold Statement
  decide
theorem roundg (i : RoundIndex) : Statement (.roundg i) := by
  revert i
  unfold Statement
  decide
theorem roundh (i : RoundIndex) : Statement (.roundh i) := by
  revert i
  unfold Statement
  decide
theorem roundi (i : RoundIndex) : Statement (.roundi i) := by
  revert i
  unfold Statement
  decide
theorem accum : Statement .accum := by unfold Statement; decide
theorem serial : Statement .serial := by unfold Statement; decide
theorem done : Statement .done := by unfold Statement; decide
theorem start (msg : List Byte) : Statement (.start msg) := fun _ => ⟨rfl, by simp [tableWord, encode, row]⟩
theorem rdstat : Statement .rdstat := by unfold Statement; decide
theorem rddig : Statement .rddig := by unfold Statement; decide

end Sys2Proof.Laws.TableRow
end

