-- ==== Sys2Proof/Laws/Step.lean ====
section
/-!
SUPPORT. What a step can do, said once for each kind of move.
-/

namespace Sys2Proof.Machine

/-- The move is a core step of engine `k`: on the agenda, or by turn when nothing is. -/
def State.CoreMove (s : State) (k : Nat) (rest : List Event) : Prop :=
  s.agenda = .core k :: rest ∨ (s.agenda = [] ∧ k = s.turn ∧ rest = [])

theorem step_of_coreMove {s : State} {k : Nat} {rest : List Event} (h : s.CoreMove k rest) :
    step s = (match fetchCore (s.take k rest) with | .run i s' => exec i s' | .settled o => o) := by
  have hf : fetch s = fetchCore (s.take k rest) := by
    rcases h with h | ⟨h, rfl, rfl⟩ <;> simp only [fetch, h]
  calc step s = (match fetch s with | .run i s' => exec i s' | .settled o => o) := rfl
    _ = _ := by rw [hf]

/-- R183: a core step runs what `SEQ` decodes to. -/
theorem step_core_run {s : State} {k : Nat} {rest : List Event} {e : Engine} {i : Instr} (h : s.CoreMove k rest)
    (hk : s.engines[k]? = some e) (hf : e.faults = []) (hd : decodeSeq e.seq = .ok i) : step s = exec i (s.take k rest) := by
  rw [step_of_coreMove h]
  simp [fetchCore, hk, hf, hd]

/-- R183: a faulted engine takes no step. -/
theorem step_core_faulted {s : State} {k : Nat} {rest : List Event} {e : Engine} (h : s.CoreMove k rest)
    (hk : s.engines[k]? = some e) (hf : e.faults ≠ []) : step s = .next (s.take k rest) := by
  rw [step_of_coreMove h]
  simp [fetchCore, hk, hf]

/-- R76, R183: an illegal `SEQ` faults. -/
theorem step_core_illegal {s : State} {k : Nat} {rest : List Event} {e : Engine} {x : DecodeError}
    (h : s.CoreMove k rest) (hk : s.engines[k]? = some e) (hf : e.faults = []) (hd : decodeSeq e.seq = .error x) :
    step s = .next ((s.take k rest).setCur (e.record (.illegalSeq e.seq))) := by
  rw [step_of_coreMove h]
  simp [fetchCore, hk, hf, hd, takeFault_of_cur (s := s.take k rest) (e := e) (by simpa using hk)]

/-- A move of an engine that does not exist stops the model (log 8). -/
theorem step_core_none {s : State} {k : Nat} {rest : List Event} (h : s.CoreMove k rest) (hk : s.engines[k]? = none) :
    step s = .fault .noSuchEngine := by
  rw [step_of_coreMove h]
  simp [fetchCore, hk]

/-- R78, R206: a host command runs what its code decodes to. -/
theorem step_host_run {s : State} {k : Nat} {code : Byte} {payload : List Byte} {rest : List Event} {e : Engine} {i : Instr}
    (h : s.agenda = .host k code payload :: rest) (hk : s.engines[k]? = some e) (hd : decodeHost code payload = .ok i) :
    step s = exec i (s.takeHost k rest) := by
  simp [step, fetch, h, fetchHost, hk, hd]

/-- R207: a reserved code faults. -/
theorem step_host_illegal {s : State} {k : Nat} {code : Byte} {payload : List Byte} {rest : List Event} {e : Engine}
    {x : DecodeError} (h : s.agenda = .host k code payload :: rest) (hk : s.engines[k]? = some e)
    (hd : decodeHost code payload = .error x) :
    step s = .next ((s.takeHost k rest).setCur (e.record (.illegalHostCmd e.seq code))) := by
  simp [step, fetch, h, fetchHost, hk, hd, takeFault_of_cur (s := s.takeHost k rest) (e := e) (by simpa using hk)]

/-- R81, R187: WAIT polls; while DONE is 0 it stays behind a core step of each engine. -/
theorem step_wait {s : State} {k : Nat} {rest : List Event} {e : Engine} (h : s.agenda = .wait k :: rest)
    (hk : s.engines[k]? = some e) :
    step s = .next { s.takeHost k (if isDone e.seq then rest else s.coreRound ++ .wait k :: rest) with
      reply := .status (statusOf e.seq) } := by
  have hd : decodeHost 0x02 [] = .ok .rdstat := by decide
  simp only [step, fetch, h, fetchHost, State.cur_takeWait, hk, hd, exec, execRdstat]
  simp only [State.takeWait, hk]
  split <;> simp_all

/-- R250: reset. -/
theorem step_reset {s : State} {k : Nat} {rest : List Event} {e : Engine} (h : s.agenda = .reset k :: rest)
    (hk : s.engines[k]? = some e) : step s = .next ((s.take k rest).setCur Engine.reset) := by
  simp [step, fetch, h, State.takeReset, hk]

/-- Everything a step can do when the machine goes on: the engine `k` its move names exists, and from the state `s1` that
differs from `s` in the selection, the agenda and the reply only, the move is carried out. -/
theorem step_next_cases {s t : State} (h : step s = .next t) :
    ∃ k e s1, s.engines[k]? = some e ∧ s1.cur = some e ∧ s1.engines = s.engines ∧ s1.params = s.params ∧ s1.sel = k ∧
      k = s.mover ∧
      ((∃ rest, s.CoreMove k rest ∧ s1 = s.take k rest ∧
          ((e.faults ≠ [] ∧ t = s1) ∨ (e.faults = [] ∧ ∃ i, decodeSeq e.seq = .ok i ∧ exec i s1 = .next t) ∨
           (e.faults = [] ∧ (∃ x, decodeSeq e.seq = .error x) ∧ t = s1.setCur (e.record (.illegalSeq e.seq))))) ∨
       (∃ code payload rest, s.agenda = .host k code payload :: rest ∧ s1 = s.takeHost k rest ∧
          ((∃ i, decodeHost code payload = .ok i ∧ exec i s1 = .next t) ∨
           ((∃ x, decodeHost code payload = .error x) ∧ t = s1.setCur (e.record (.illegalHostCmd e.seq code))))) ∨
       (∃ rest, s.agenda = .wait k :: rest ∧ t = { s1 with reply := .status (statusOf e.seq) }) ∨
       (∃ rest, s.agenda = .reset k :: rest ∧ s1 = s.take k rest ∧ t = s1.setCur Engine.reset)) := by
  have core : ∀ k rest, s.CoreMove k rest → ∃ e, s.engines[k]? = some e ∧
      ((e.faults ≠ [] ∧ t = s.take k rest) ∨
       (e.faults = [] ∧ ∃ i, decodeSeq e.seq = .ok i ∧ exec i (s.take k rest) = .next t) ∨
       (e.faults = [] ∧ (∃ x, decodeSeq e.seq = .error x) ∧
          t = (s.take k rest).setCur (e.record (.illegalSeq e.seq)))) := by
    intro k rest hm
    rcases hk : s.engines[k]? with _ | e
    · rw [step_core_none hm hk] at h
      cases h
    · refine ⟨e, rfl, ?_⟩
      by_cases hf : e.faults = []
      · rcases hd : decodeSeq e.seq with x | i
        · rw [step_core_illegal hm hk hf hd] at h
          exact .inr (.inr ⟨hf, ⟨x, rfl⟩, (Host.Outcome.next.inj h).symm⟩)
        · rw [step_core_run hm hk hf hd] at h
          exact .inr (.inl ⟨hf, i, rfl, h⟩)
      · rw [step_core_faulted hm hk hf] at h
        exact .inl ⟨hf, (Host.Outcome.next.inj h).symm⟩
  rcases ha : s.agenda with _ | ⟨ev, rest⟩
  · have hm : s.CoreMove s.turn [] := .inr ⟨ha, rfl, rfl⟩
    obtain ⟨e, hk, hc⟩ := core _ _ hm
    exact ⟨s.turn, e, s.take s.turn [], hk, by simpa using hk, rfl, rfl, rfl, by simp [State.mover, ha], .inl ⟨[], hm, rfl, hc⟩⟩
  · rcases ev with k | ⟨k, code, payload⟩ | k | k
    · have hm : s.CoreMove k rest := .inl ha
      obtain ⟨e, hk, hc⟩ := core _ _ hm
      exact ⟨k, e, s.take k rest, hk, by simpa using hk, rfl, rfl, rfl, by simp [State.mover, ha, Event.target], .inl ⟨rest, hm, rfl, hc⟩⟩
    · rcases hk : s.engines[k]? with _ | e
      · simp [step, fetch, ha, fetchHost, hk] at h
      · refine ⟨k, e, s.takeHost k rest, hk, by simpa using hk, rfl, rfl, rfl, by simp [State.mover, ha, Event.target],
          .inr (.inl ⟨code, payload, rest, rfl, rfl, ?_⟩)⟩
        rcases hd : decodeHost code payload with x | i
        · rw [step_host_illegal ha hk hd] at h
          exact .inr ⟨⟨x, rfl⟩, (Host.Outcome.next.inj h).symm⟩
        · rw [step_host_run ha hk hd] at h
          exact .inl ⟨i, rfl, h⟩
    · rcases hk : s.engines[k]? with _ | e
      · simp [step, fetch, ha, fetchHost, hk] at h
      · rw [step_wait ha hk] at h
        exact ⟨k, e, s.takeHost k (if isDone e.seq then rest else s.coreRound ++ .wait k :: rest), hk, by simpa using hk,
          rfl, rfl, rfl, by simp [State.mover, ha, Event.target], .inr (.inr (.inl ⟨rest, rfl, (Host.Outcome.next.inj h).symm⟩))⟩
    · rcases hk : s.engines[k]? with _ | e
      · simp [step, fetch, ha, State.takeReset, hk] at h
      · rw [step_reset ha hk] at h
        exact ⟨k, e, s.take k rest, hk, by simpa using hk, rfl, rfl, rfl, by simp [State.mover, ha, Event.target],
          .inr (.inr (.inr ⟨rest, rfl, rfl, (Host.Outcome.next.inj h).symm⟩))⟩

/-- What a step leaves of the machine as a whole (R40): it acts on one engine that exists, the others stay. -/
theorem step_next_machine {s t : State} (h : step s = .next t) :
    ∃ e, s.engines[s.mover]? = some e ∧ t.sel = s.mover ∧ t.params = s.params ∧ t.engines.length = s.engines.length ∧
      ∀ k, k ≠ s.mover → t.engines[k]? = s.engines[k]? := by
  obtain ⟨k0, e, s1, hk, hc, he, hp, hs, hka, hh⟩ := step_next_cases h
  subst hka
  have put : ∀ (x : Engine) (k : Nat), k ≠ s.mover → (s1.setCur x).engines[k]? = s.engines[k]? := by
    intro x k hne
    rw [← he]
    exact State.engines_setCur_ne s1 x (by rw [hs]; exact hne)
  refine ⟨e, hk, ?_⟩
  rcases hh with ⟨rest, hm, h1, ⟨hf, rfl⟩ | ⟨hf, i, hd, hx⟩ | ⟨hf, -, rfl⟩⟩ |
    ⟨code, pl, rest, ha, h1, ⟨i, hd, hx⟩ | ⟨-, rfl⟩⟩ | ⟨rest, ha, rfl⟩ | ⟨rest, ha, h1, rfl⟩
  case inl.inr.inl | inr.inl.inl =>
    obtain ⟨e0, e1, r, h0, rfl⟩ := exec_next_shape hx
    exact ⟨hs, hp, by simp [he], put e1⟩
  case inl.inl => exact ⟨hs, hp, by rw [he], fun k _ => by rw [he]⟩
  case inr.inr.inl => exact ⟨hs, hp, by simp [he], fun k _ => by rw [← he]⟩
  all_goals exact ⟨hs, hp, by simp [he], put _⟩

/-- What a step does to one engine: nothing, a fault of decoding, an instruction of a core step or of a host command, or
reset. -/
theorem step_engine_cases {s t : State} {k : Nat} {e e' : Engine} (h : step s = .next t) (hk : s.engines[k]? = some e)
    (hk' : t.engines[k]? = some e') :
    e' = e ∨
    (∃ f, e' = e.record f ∧
      ((∃ rest, s.CoreMove k rest) ∧ (∃ x, decodeSeq e.seq = .error x) ∧ f = .illegalSeq e.seq ∨
       ∃ code payload rest, s.agenda = .host k code payload :: rest ∧ (∃ x, decodeHost code payload = .error x) ∧
         f = .illegalHostCmd e.seq code)) ∨
    (∃ rest i, s.CoreMove k rest ∧ e.faults = [] ∧ decodeSeq e.seq = .ok i ∧ exec i (s.take k rest) = .next t ∧
      (s.take k rest).cur = some e ∧ t.cur = some e') ∨
    (∃ code payload rest i, s.agenda = .host k code payload :: rest ∧ decodeHost code payload = .ok i ∧
      exec i (s.takeHost k rest) = .next t ∧ (s.takeHost k rest).cur = some e ∧ t.cur = some e') ∨
    (∃ rest, s.agenda = .reset k :: rest ∧ e' = Engine.reset) := by
  by_cases hkm : k = s.mover
  · obtain ⟨k0, e0, s1, hk0, hc, he, hp, hs, hka, hh⟩ := step_next_cases h
    obtain rfl : k = k0 := by rw [hkm, hka]
    rw [hk] at hk0
    cases hk0
    have hset : ∀ x, (s1.setCur x).engines[k]? = some x := by
      intro x
      have := State.cur_setCur hc x
      simpa [State.cur, hs] using this
    rcases hh with ⟨rest, hm, h1, ⟨hf, rfl⟩ | ⟨hf, i, hd, hx⟩ | ⟨hf, hx, rfl⟩⟩ |
      ⟨code, pl, rest, ha, h1, ⟨i, hd, hx⟩ | ⟨hx, rfl⟩⟩ | ⟨rest, ha, rfl⟩ | ⟨rest, ha, h1, rfl⟩
    · rw [he, hk] at hk'
      cases hk'
      exact .inl rfl
    · subst h1
      refine .inr (.inr (.inl ⟨rest, i, hm, hf, hd, hx, hc, ?_⟩))
      obtain ⟨_, _, r, h0, rfl⟩ := exec_next_shape hx
      exact hk'
    · rw [hset] at hk'
      cases hk'
      exact .inr (.inl ⟨_, rfl, .inl ⟨⟨rest, hm⟩, hx, rfl⟩⟩)
    · subst h1
      refine .inr (.inr (.inr (.inl ⟨code, pl, rest, i, ha, hd, hx, hc, ?_⟩)))
      obtain ⟨_, _, r, h0, rfl⟩ := exec_next_shape hx
      exact hk'
    · rw [hset] at hk'
      cases hk'
      exact .inr (.inl ⟨_, rfl, .inr ⟨code, pl, rest, ha, hx, rfl⟩⟩)
    · have : s1.engines[k]? = some e' := hk'
      rw [he, hk] at this
      cases this
      exact .inl rfl
    · rw [hset] at hk'
      cases hk'
      exact .inr (.inr (.inr (.inr ⟨rest, ha, rfl⟩)))
  · obtain ⟨e1, h1, h2, h3, h4, h5⟩ := step_next_machine h
    rw [h5 k hkm, hk] at hk'
    cases hk'
    exact .inl rfl

/-- Every move but WAIT, to an engine that exists, goes on, uses itself up and leaves the machine's size. -/
theorem step_next_of_event {s : State} {ev : Event} {rest : List Event} (ha : s.agenda = ev :: rest)
    (hk : ev.target < s.engines.length) (hw : ∀ j, ev ≠ .wait j) :
    ∃ t, step s = .next t ∧ t.agenda = rest ∧ t.params = s.params ∧ t.engines.length = s.engines.length := by
  have hg : s.engines[ev.target]? = some (s.engines[ev.target]) := List.getElem?_eq_getElem hk
  generalize s.engines[ev.target] = e at hg
  have hex : ∀ (i : Instr) (s1 : State), s1.cur = some e → ∃ t, exec i s1 = .next t ∧ t.agenda = s1.agenda ∧
      t.params = s1.params ∧ t.engines.length = s1.engines.length := by
    intro i s1 hc
    obtain ⟨t, ht⟩ := exec_of_cur i hc
    obtain ⟨_, _, r, _, rfl⟩ := exec_next_shape ht
    exact ⟨_, ht, rfl, rfl, by simp⟩
  cases ev with
  | core k =>
    by_cases hf : e.faults = []
    · rcases hd : decodeSeq e.seq with x | i
      · exact ⟨_, step_core_illegal (.inl ha) hg hf hd, rfl, rfl, by simp⟩
      · rw [step_core_run (.inl ha) hg hf hd]
        exact hex i _ hg
    · exact ⟨_, step_core_faulted (.inl ha) hg hf, rfl, rfl, rfl⟩
  | host k code payload =>
    rcases hd : decodeHost code payload with x | i
    · exact ⟨_, step_host_illegal ha hg hd, rfl, rfl, by simp⟩
    · rw [step_host_run ha hg hd]
      exact hex i _ hg
  | wait k => exact absurd rfl (hw k)
  | reset k => exact ⟨_, step_reset ha hg, rfl, rfl, by simp⟩

/-- What a round of core steps holds (R187). -/
theorem State.mem_coreRound {s : State} {ev : Event} : ev ∈ s.coreRound ↔ ∃ k, k < s.engines.length ∧ ev = .core k := by
  simp [State.coreRound, eq_comm]

@[simp] theorem State.length_coreRound (s : State) : s.coreRound.length = s.engines.length := by simp [State.coreRound]

/-- A round has one core step of each engine. -/
theorem State.count_coreRound {s : State} {k : Nat} (hk : k < s.engines.length) : s.coreRound.count (.core k) = 1 := by
  rw [State.coreRound, List.count_map_of_injective _ Event.core (fun _ _ h => Event.core.inj h)]
  exact List.count_eq_one_of_mem List.nodup_range (List.mem_range.mpr hk)

/-- Before engine `k`'s own core step a round has the steps of the engines below it. -/
theorem State.coreRound_split {s : State} {k : Nat} (hk : k < s.engines.length) :
    ∃ after, s.coreRound = (List.range k).map .core ++ .core k :: after := by
  refine ⟨s.coreRound.drop (k + 1), ?_⟩
  have h : s.coreRound[k]? = some (.core k) := by simp [State.coreRound, hk]
  have ht : s.coreRound.take k = (List.range k).map .core := by
    rw [State.coreRound, ← List.map_take, List.take_range, Nat.min_eq_left hk.le]
  rw [← ht]
  obtain ⟨hlt, hget⟩ := List.getElem?_eq_some_iff.mp h
  rw [← hget, ← List.drop_eq_getElem_cons hlt, List.take_append_drop]

/-- The first of `n + 1` steps. -/
theorem run_succ {n : Nat} {s t : State} (h : step s = .next t) :
    Host.Core.run Sys2Proof.core (n + 1) s = Host.Core.run Sys2Proof.core n t := by
  have : Sys2Proof.core.step s = .next t := h
  simp only [Host.Core.run, this]

/-- A run over moves that are no WAIT, all to engines that exist, uses them up and goes on. -/
theorem run_events (evs : List Event) {s : State} {rest : List Event} (ha : s.agenda = evs ++ rest)
    (hk : ∀ ev ∈ evs, ev.target < s.engines.length) (hw : ∀ ev ∈ evs, ∀ j, ev ≠ .wait j) :
    ∃ t, Host.Core.run Sys2Proof.core evs.length s = .next t ∧ t.agenda = rest ∧ t.params = s.params ∧
      t.engines.length = s.engines.length := by
  induction evs generalizing s with
  | nil => exact ⟨s, rfl, ha, rfl, rfl⟩
  | cons ev evs ih =>
    obtain ⟨t, h1, h2, h3, h4⟩ := step_next_of_event ha (hk ev List.mem_cons_self) (hw ev List.mem_cons_self)
    obtain ⟨u, g1, g2, g3, g4⟩ := ih h2 (fun e he => h4 ▸ hk e (List.mem_cons_of_mem _ he))
      (fun e he => hw e (List.mem_cons_of_mem _ he))
    exact ⟨u, (run_succ h1).trans g1, g2, g3.trans h3, g4.trans h4⟩

/-- A run in two parts. -/
theorem run_add {m n : Nat} {s t : State} (h : Host.Core.run Sys2Proof.core m s = .next t) :
    Host.Core.run Sys2Proof.core (m + n) s = Host.Core.run Sys2Proof.core n t := by
  induction m generalizing s with
  | zero =>
    have : s = t := Host.Outcome.next.inj h
    subst this
    rw [Nat.zero_add]
  | succ m ih =>
    rw [show m + 1 + n = (m + n) + 1 by omega]
    rcases hs : step s with s' | r | r
    · rw [run_succ hs] at h ⊢
      exact ih h
    · have : Sys2Proof.core.step s = .fault r := hs
      simp only [Host.Core.run, this] at h
      cases h
    · have : Sys2Proof.core.step s = .refused r := hs
      simp only [Host.Core.run, this] at h
      cases h

end Sys2Proof.Machine
end

