-- ==== Sys2Proof/Laws/Run.lean ====
section
/-!
SUPPORT. A run as phases (spec rules R182, R185): what an engine holds in each, and that a core step takes it to the next.
-/

namespace Sys2Proof.Machine

/-- R38: right after reset every register is unwritten. -/
theorem Engine.allUnwritten_reset : Engine.reset.AllUnwritten := by
  refine ⟨rfl, rfl, rfl, rfl, rfl, rfl, rfl, rfl, rfl, rfl, ?_, rfl, ?_⟩ <;> intro j <;> simp [Engine.reset]

/-- R223: a fault writes no register. -/
@[simp] theorem Engine.allUnwritten_record {e : Engine} {f : CoreFault} :
    (e.record f).AllUnwritten ↔ e.AllUnwritten := Iff.rfl

/-- The padded length (R105). -/
theorem length_padMessage (msg : List Byte) : (padMessage msg).length = 64 * blockCount msg.length := by
  simp [padMessage, zeroCount, blockCount]
  omega

/-- Where a run is (R185). -/
inductive Phase where
  | init
  | padm
  | padz (zeros : Nat)
  | aplen
  | loadb (k : Nat)
  | round (k : Nat) (i : RoundIndex)
  | accum (k : Nat)
  | serial
  | done

/-- The micro-operation of a phase. -/
def Phase.op : Phase → Instr
  | .init => .init
  | .padm => .padm
  | .padz _ => .padz
  | .aplen => .aplen
  | .loadb _ => .loadb
  | .round _ i => roundInstr i
  | .accum _ => .accum
  | .serial => .serial
  | .done => .done

/-- The phase after (R182, for a message of length `len`). -/
def Phase.next (len : Nat) : Phase → Phase
  | .init => .padm
  | .padm => if zeroCount len = 0 then .aplen else .padz 0
  | .padz z => if z + 1 = zeroCount len then .aplen else .padz (z + 1)
  | .aplen => .loadb 0
  | .loadb k => .round k 0
  | .round k i => if i.toNat ≤ 62 then .round k (i + 1) else .accum k
  | .accum k => if k + 1 < blockCount len then .loadb (k + 1) else .serial
  | .serial => .done
  | .done => .done

/-- A phase of a run of this length. -/
def Phase.inRun (len : Nat) : Phase → Prop
  | .padz z => z < zeroCount len
  | .loadb k => k < blockCount len
  | .round k _ => k < blockCount len
  | .accum k => k < blockCount len
  | _ => True

/-- How many core steps after INIT's the phase is reached (R185). -/
def Phase.index (len : Nat) : Phase → Nat
  | .init => 0
  | .padm => 1
  | .padz z => 2 + z
  | .aplen => 2 + zeroCount len
  | .loadb k => 3 + zeroCount len + 66 * k
  | .round k i => 3 + zeroCount len + 66 * k + 1 + i.toNat
  | .accum k => 3 + zeroCount len + 66 * k + 65
  | .serial => 3 + zeroCount len + 66 * blockCount len
  | .done => stepCount len

/-- The engine is in this phase of computing the digest of `msg`. -/
def Engine.InPhase (e : Engine) (msg : List Byte) (ph : Phase) : Prop :=
  ph.inRun msg.length ∧ decodeSeq e.seq = .ok ph.op ∧
  match ph with
  | .init => e.buf = .holds (Memory.ofBytes msg)
  | .padm => e.buf = .holds (Memory.ofBytes msg) ∧ e.ol = .holds (BitVec.ofNat 64 msg.length) ∧ e.HoldsH iv ∧ e.blk = .holds 0
  | .padz z => e.Padding msg z
  | .aplen => e.Padding msg (zeroCount msg.length)
  | .loadb k => e.Hashing msg k
  | .round k i => e.InRounds msg k i.toNat
  | .accum k => e.InRounds msg k 64
  | .serial => e.Hashing msg (blockCount msg.length)
  | .done => e.Hashing msg (blockCount msg.length) ∧ e.HoldsDout (md5 msg)

/-- nb ≥ 1 (R105). -/
theorem blockCount_pos (len : Nat) : 0 < blockCount len := by simp [blockCount]

/-- The bounds are kept. -/
theorem Phase.inRun_next {len : Nat} {ph : Phase} (h : ph.inRun len) : (ph.next len).inRun len := by
  have hpos := blockCount_pos len
  cases ph with
  | padm =>
    by_cases hz : zeroCount len = 0
    · simp only [Phase.next, if_pos hz, Phase.inRun]
    · simp only [Phase.next, if_neg hz, Phase.inRun]; omega
  | padz z =>
    simp only [Phase.inRun] at h
    by_cases hz : z + 1 = zeroCount len
    · simp only [Phase.next, if_pos hz, Phase.inRun]
    · simp only [Phase.next, if_neg hz, Phase.inRun]; omega
  | round k i =>
    by_cases hi : i.toNat ≤ 62
    · simpa only [Phase.next, if_pos hi, Phase.inRun] using h
    · simpa only [Phase.next, if_neg hi, Phase.inRun] using h
  | accum k =>
    by_cases hk : k + 1 < blockCount len
    · simpa only [Phase.next, if_pos hk, Phase.inRun] using hk
    · simp only [Phase.next, if_neg hk, Phase.inRun]
  | loadb k => exact h
  | aplen => exact hpos
  | init | serial | done => trivial

/-- Every phase but the last takes one core step. -/
theorem Phase.index_next {len : Nat} {ph : Phase} (h : ph.inRun len) (hd : ph ≠ .done) :
    (ph.next len).index len = ph.index len + 1 := by
  cases ph with
  | padm =>
    by_cases hz : zeroCount len = 0
    · simp only [Phase.next, if_pos hz, Phase.index]; omega
    · simp only [Phase.next, if_neg hz, Phase.index]
  | padz z =>
    by_cases hz : z + 1 = zeroCount len
    · simp only [Phase.next, if_pos hz, Phase.index]; omega
    · simp only [Phase.next, if_neg hz, Phase.index]; omega
  | round k i =>
    have := i.isLt
    by_cases hi : i.toNat ≤ 62
    · simp only [Phase.next, if_pos hi, Phase.index, show (i + 1).toNat = i.toNat + 1 by simp; omega]; omega
    · simp only [Phase.next, if_neg hi, Phase.index]; omega
  | accum k =>
    simp only [Phase.inRun] at h
    by_cases hk : k + 1 < blockCount len
    · simp only [Phase.next, if_pos hk, Phase.index]; omega
    · simp only [Phase.next, if_neg hk, Phase.index]; omega
  | loadb k => rfl
  | init => rfl
  | aplen => simp only [Phase.next, Phase.index]; omega
  | serial => simp only [Phase.next, Phase.index, stepCount]; omega
  | done => exact absurd rfl hd

/-- The sum that the padding tests (R182). -/
theorem pad_test (len z : Nat) (hz : z ≤ zeroCount len) : (len + 1 + z) % 64 = 56 ↔ z = zeroCount len := by
  simp only [zeroCount] at *; omega

/-- R9's constraint keeps the block counter from wrapping (R27, log 9). -/
theorem fits_blkSucc {p : Params} {len k : Nat} (hf : p.fits = true) (ha : p.admits len = true) (hk : k < blockCount len) :
    blkSucc p k = k + 1 := by
  unfold blkSucc
  split
  · rfl
  · rename_i w hw
    unfold Params.fits at hf
    simp only [hw] at hf
    unfold Params.admits at ha
    split at hf
    · cases ‹some w = none›
    · cases hf
    · rename_i w' m hw' hm
      cases hw'
      simp only [hm] at ha
      simp at hf ha
      apply Nat.mod_eq_of_lt
      simp only [blockCount] at hk
      omega

/-- One round more (R144). -/
theorem afterRounds_succ (msg : List Byte) (k : Nat) (i : RoundIndex) :
    afterRounds msg k (i.toNat + 1) = roundOn (blockWord (padMessage msg) k) (afterRounds msg k i.toNat) i := by
  have hl : i.toNat < roundIndexes.length := by simpa [roundIndexes] using i.isLt
  unfold afterRounds
  rw [List.take_succ_eq_append_getElem hl, List.foldl_append]
  simp [roundIndexes]

/-- All 64 rounds (R145). -/
theorem afterRounds_all (msg : List Byte) (k : Nat) :
    afterRounds msg k 64 = compress (blockWord (padMessage msg) k) (runningState (padMessage msg) k) := by
  unfold afterRounds compress
  rw [List.take_of_length_le (by simp [roundIndexes])]

/-- One block more (R161). -/
theorem runningState_succ (bytes : List Byte) (k : Nat) :
    runningState bytes (k + 1) = chain bytes (runningState bytes k) k := by
  simp [runningState, List.range_succ]

/-- The 64-bit length loses nothing of the bit length (R23). -/
theorem length_mod (msg : List Byte) : (BitVec.ofNat 64 msg.length).toNat * 8 % 2 ^ 64 = msg.length * 8 % 2 ^ 64 := by
  simp

/-- The round `RI` selects, on the working words `q` and the message word `x` (R73, R144). -/
theorem exec_roundInstr {s : State} {e : Engine} {q : Quad} {x : Word} (ri : RoundIndex) (hc : s.cur = some e)
    (hw : e.HoldsW q) (hm : e.m[msgIndex ri] = .holds x) :
    exec (roundInstr ri) s = .next (s.setCur (e.afterRound q (auxOf ri q.b q.c q.d + q.a + roundConst ri + x)
      (shiftAmount ri) (nextRound ri))) := by
  obtain ⟨ha, hb, hcc, hd⟩ := hw
  rcases roundInstr_cases ri with ⟨h, h'⟩ | ⟨h, h2, h'⟩ | ⟨h, h2, h'⟩ | ⟨h, h'⟩ <;> rw [h']
  · rw [show auxOf ri = auxF from if_pos h]
    exact exec_round (aux := auxF) rfl (fun _ => rfl) hc ha hb hcc hd hm
  · rw [show auxOf ri = auxG by rw [auxOf, if_neg (by omega), if_pos h2]]
    exact exec_round (aux := auxG) rfl (fun _ => rfl) hc ha hb hcc hd hm
  · rw [show auxOf ri = auxH by rw [auxOf, if_neg (by omega), if_neg (by omega), if_pos h2]]
    exact exec_round (aux := auxH) rfl (fun _ => rfl) hc ha hb hcc hd hm
  · rw [show auxOf ri = auxI by rw [auxOf, if_neg (by omega), if_neg (by omega), if_neg (by omega)]]
    exact exec_round (aux := auxI) rfl (fun _ => rfl) hc ha hb hcc hd hm

/-- The ROUND rows of R182. -/
theorem decode_nextRound (i : RoundIndex) (k len : Nat): decodeSeq (nextRound i) = .ok (Phase.op (Phase.next len (.round k i))) := by
  unfold nextRound
  by_cases hi : i.toNat ≤ 62
  · rw [if_pos hi]; simp only [Phase.next, if_pos hi, Phase.op, decodeSeq_round]
  · rw [if_neg hi]; simp only [Phase.next, if_neg hi, Phase.op, decodeSeq_accum]

/-- One phase of a run: the next micro-operation completes, raises nothing, and the engine is in the next phase. -/
theorem exec_phase {s : State} {e : Engine} {msg : List Byte} {ph : Phase}
    (hks : ∀ k, ph = .accum k → blkSucc s.params k = k + 1) (hc : s.cur = some e) (h : e.InPhase msg ph) (hd : ph ≠ .done) :
    ∃ e', exec ph.op s = .next (s.setCur e') ∧ e'.faults = e.faults ∧ e'.InPhase msg (ph.next msg.length) := by
  obtain ⟨hr, hs, h⟩ := h
  have hr' := Phase.inRun_next hr
  cases ph with
  | done => exact absurd rfl hd
  | init =>
    refine ⟨_, microOp_of_ok (op := .init) (w := 0x2000#16) hc (performInit_eq_ok.mpr ⟨_, h, rfl⟩) rfl, rfl, hr', decodeSeq_padm, ?_⟩
    exact ⟨h, by rw [Memory.len_ofBytes], ⟨rfl, rfl, rfl, rfl⟩, rfl⟩
  | padm =>
    obtain ⟨hb, ho, hh, hk⟩ := h
    refine ⟨_, microOp_of_ok (op := .padm) (w := nextPad ((Memory.ofBytes msg).append [0x80#8])) hc (performPadm_eq_ok.mpr ⟨_, hb, rfl⟩) rfl, rfl, hr', ?_, ?_⟩
    · have := pad_test msg.length 0 (by omega)
      simp only [nextPad, Memory.len_append, Memory.len_ofBytes, List.length_singleton]
      by_cases hz : zeroCount msg.length = 0
      · rw [if_pos (by omega)]; simp only [Phase.next, if_pos hz, Phase.op, decodeSeq_aplen]
      · rw [if_neg (by omega)]; simp only [Phase.next, if_neg hz, Phase.op, decodeSeq_padz]
    · have : ({ e.appendBuf (Memory.ofBytes msg) 1 0x80 with seq := nextPad ((Memory.ofBytes msg).append [0x80#8]) } : Engine).Padding msg 0 :=
        ⟨by simp [Memory.write, leBytes], ho, hh, hk⟩
      by_cases hz : zeroCount msg.length = 0
      · simp only [Phase.next, if_pos hz]
        rw [hz]; exact this
      · simp only [Phase.next, if_neg hz]
        exact this
  | padz z =>
    obtain ⟨hb, ho, hh, hk⟩ := h
    simp only [Phase.inRun] at hr
    refine ⟨_, microOp_of_ok (op := .padz) (w := nextPad ((Memory.ofBytes (msg ++ [0x80] ++ List.replicate z 0x00)).append [0x00#8])) hc (performPadz_eq_ok.mpr ⟨_, hb, rfl⟩) rfl, rfl, hr', ?_, ?_⟩
    · have := pad_test msg.length (z+1) (by omega)
      simp only [nextPad, Memory.len_append, Memory.len_ofBytes, List.length_singleton, List.length_append, List.length_replicate]
      by_cases hz : z + 1 = zeroCount msg.length
      · rw [if_pos (by omega)]; simp only [Phase.next, if_pos hz, Phase.op, decodeSeq_aplen]
      · rw [if_neg (by omega)]; simp only [Phase.next, if_neg hz, Phase.op, decodeSeq_padz]
    · have : ({ e.appendBuf (Memory.ofBytes (msg ++ [0x80] ++ List.replicate z 0x00)) 1 0x00 with seq := nextPad ((Memory.ofBytes (msg ++ [0x80] ++ List.replicate z 0x00)).append [0x00#8]) } : Engine).Padding msg (z+1) :=
        ⟨by simp [Memory.write, leBytes, List.replicate_succ'], ho, hh, hk⟩
      by_cases hz : z + 1 = zeroCount msg.length
      · simp only [Phase.next, if_pos hz]
        rw [← hz]; exact this
      · simp only [Phase.next, if_neg hz]
        exact this
  | aplen =>
    obtain ⟨hb, ho, hh, hk⟩ := h
    refine ⟨_, microOp_of_ok (op := .aplen) (w := 0x5000#16) hc (performAplen_eq_ok.mpr ⟨_, ho, _, hb, rfl⟩) rfl, rfl, hr', decodeSeq_loadb, ?_⟩
    refine ⟨?_, ho, hh, hk⟩
    rw [bitLength_toNat, length_mod]
    simp [Memory.write, padMessage]
  | loadb k =>
    obtain ⟨hb, ho, hh, hk⟩ := h
    simp only [Phase.inRun] at hr
    have hlen := length_padMessage msg
    refine ⟨_, microOp_of_ok (op := .loadb) (w := 0x6000#16) hc
      (performLoadb_eq_ok.mpr ⟨_, hk, _, hb, _, Engine.readH_eq_ok.mpr hh, Memory.firstBadWord_ofBytes _ _ (by omega), rfl⟩) rfl, rfl, hr', (decodeSeq_round 0#6), ?_⟩
    refine ⟨hr, ⟨hb, ho, hh, hk⟩, ?_, ⟨rfl, rfl, rfl, rfl⟩⟩
    intro j
    have := j.isLt
    simp only [blockWords, Fin.getElem_fin, Vector.getElem_ofFn]
    rw [Memory.wordAt_ofBytes _ _ (by omega)]
    rfl
  | round k i =>
    obtain ⟨hk, hH, hM, hW⟩ := h
    refine ⟨_, exec_roundInstr i hc hW (hM _), rfl, hr', ?_, ?_⟩
    · rw [← decode_nextRound]; rfl
    · have : (e.afterRound (afterRounds msg k i.toNat)
          (auxOf i (afterRounds msg k i.toNat).b (afterRounds msg k i.toNat).c (afterRounds msg k i.toNat).d +
                (afterRounds msg k i.toNat).a +
              roundConst i +
            blockWord (padMessage msg) k (msgIndex i)) (shiftAmount i) (nextRound i)).InRounds msg k (i.toNat + 1) := by
        refine ⟨hk, hH, hM, ?_⟩
        rw [afterRounds_succ]
        exact ⟨rfl, rfl, rfl, rfl⟩
      have hi := i.isLt
      by_cases h62 : i.toNat ≤ 62
      · simp only [Phase.next, if_pos h62]
        rw [show (i + 1).toNat = i.toNat + 1 by simp; omega]
        exact this
      · simp only [Phase.next, if_neg h62]
        rw [show i.toNat + 1 = 64 by omega] at this
        exact this
  | accum k =>
    obtain ⟨hk, ⟨hb, ho, hh, hkk⟩, hM, hW⟩ := h
    have hks := hks k rfl
    refine ⟨_, microOp_of_ok (op := .accum) (w := if 64 * (k+1) < (Memory.ofBytes (padMessage msg)).len then enc 0x5#4 0#6 else enc 0x8#4 0#6) hc
      (performAccum_eq_ok.mpr ⟨_, _, _, hh.1, hh.2.1, hh.2.2.1, hh.2.2.2, hW.1, hW.2.1, hW.2.2.1, hW.2.2.2, hkk, rfl⟩)
      (by simp only [nextSeq, hks, Engine.withH_buf, hb]; rfl), rfl, hr', ?_, ?_⟩
    · have hlen := length_padMessage msg
      simp only [Memory.len_ofBytes, hlen]
      by_cases hlt : k + 1 < blockCount msg.length
      · rw [if_pos (by omega)]; simp only [Phase.next, if_pos hlt, Phase.op, decodeSeq_loadb]
      · rw [if_neg (by omega)]; simp only [Phase.next, if_neg hlt, Phase.op, decodeSeq_serial]
    · rw [hks]
      rw [show (runningState (padMessage msg) k).add (afterRounds msg k 64) = runningState (padMessage msg) (k+1) by
        rw [runningState_succ, afterRounds_all]; rfl]
      have : ∀ w, ({ { e.withH (runningState (padMessage msg) (k+1)) with blk := .holds (k+1) } with seq := w } : Engine).Hashing msg (k + 1) :=
        fun w => ⟨hb, ho, ⟨rfl, rfl, rfl, rfl⟩, rfl⟩
      by_cases hlt : k + 1 < blockCount msg.length
      · simp only [Phase.next, if_pos hlt]; exact this _
      · simp only [Phase.next, if_neg hlt]
        rw [show blockCount msg.length = k + 1 by omega]; exact this _
  | serial =>
    obtain ⟨hb, ho, hh, hk⟩ := h
    refine ⟨_, microOp_of_ok (op := .serial) (w := 0x9000#16) hc (performSerial_eq_ok.mpr ⟨_, Engine.readH_eq_ok.mpr hh, rfl⟩) rfl, rfl, hr', decodeSeq_done, ?_⟩
    exact ⟨⟨hb, ho, hh, hk⟩, rfl⟩

/-- `At` in terms of phases. -/
theorem Engine.at_iff {e : Engine} {msg : List Byte} {op : Instr} (hd : decodeSeq e.seq = .ok op) :
    e.At msg op ↔ ∃ ph, ph.op = op ∧ e.InPhase msg ph := by
  constructor
  · intro h
    have round : ∀ i, roundInstr i = op → (∃ k, e.InRounds msg k i.toNat) → ∃ ph : Phase, ph.op = op ∧ e.InPhase msg ph := by
      rintro i hi ⟨k, hk⟩
      exact ⟨.round k i, hi, hk.1, by rw [hd, ← hi]; rfl, hk⟩
    rcases decodeSeq_cases hd with ⟨hw, rfl⟩ | ⟨hw, rfl⟩ | ⟨hw, rfl⟩ | ⟨hw, rfl⟩ | ⟨hw, rfl⟩ | ⟨hw, rfl⟩ | ⟨i, hw, rfl⟩ | ⟨hw, rfl⟩ | ⟨hw, rfl⟩ | ⟨hw, rfl⟩
    · cases h
    · exact ⟨.init, rfl, trivial, hd, h⟩
    · exact ⟨.padm, rfl, trivial, hd, h⟩
    · obtain ⟨z, hz, h⟩ := h; exact ⟨.padz z, rfl, hz, hd, h⟩
    · exact ⟨.aplen, rfl, trivial, hd, h⟩
    · obtain ⟨k, hk, h⟩ := h; exact ⟨.loadb k, rfl, hk, hd, h⟩
    · refine round i rfl ?_
      rcases roundInstr_cases i with ⟨_, h'⟩ | ⟨_, _, h'⟩ | ⟨_, _, h'⟩ | ⟨_, h'⟩ <;> rw [h'] at h <;> exact h
    · obtain ⟨k, h⟩ := h; exact ⟨.accum k, rfl, h.1, hd, h⟩
    · exact ⟨.serial, rfl, trivial, hd, h⟩
    · exact ⟨.done, rfl, trivial, hd, h⟩
  · rintro ⟨ph, rfl, hr, -, h⟩
    cases ph with
    | padz z => exact ⟨z, hr, h⟩
    | loadb k => exact ⟨k, hr, h⟩
    | round k i =>
      rcases roundInstr_cases i with ⟨_, h'⟩ | ⟨_, _, h'⟩ | ⟨_, _, h'⟩ | ⟨_, h'⟩ <;> simp only [Phase.op, h'] <;> exact ⟨k, h⟩
    | accum k => exact ⟨k, h⟩
    | _ => exact h

/-- One core step of an engine in a phase: no fault, and the next phase (DONE stays). -/
theorem step_phase {s : State} {k : Nat} {e : Engine} {msg : List Byte} {ph : Phase} {rest : List Event}
    (ha : s.CoreMove k rest) (hk : s.engines[k]? = some e) (hf : e.faults = [])
    (hks : ∀ k, ph = .accum k → blkSucc s.params k = k + 1) (h : e.InPhase msg ph) :
    ∃ e', step s = .next ((s.take k rest).setCur e') ∧ e'.faults = [] ∧ e'.InPhase msg (ph.next msg.length) := by
  have hc : (s.take k rest).cur = some e := by simpa using hk
  rw [step_core_run ha hk hf h.2.1]
  by_cases hd : ph = .done
  · subst hd
    refine ⟨e, ?_, hf, h⟩
    rw [State.setCur_self hc]
    simp [Phase.op, exec, execDone, noStep, hk]
  · obtain ⟨e', h1, h2, h3⟩ := exec_phase (s := s.take k rest) hks hc h hd
    exact ⟨e', h1, by rw [h2, hf], h3⟩

end Sys2Proof.Machine
end

