-- ==== Sys2Proof/Tests/Slice0.lean ====
section
/-!
SUPPORT. Tests. Expected values are from spec/95_test_vectors.md and the examples of the rules named; the witnesses at the
end show that the hypotheses of the obligations can be met.
-/

namespace Sys2Proof.Tests

set_option Elab.async false

open Sys2Proof.Machine

/-! ## Helpers -/

/-- An engine whose registers all hold something: `HA..HD` = `A..D` = IV and `M[j]` = j (spec 95 section 2.3). -/
def ready (w : SeqWord) : Engine where
  seq := w
  buf := .holds (Memory.ofBytes (asciiBytes "abc"))
  ol := .holds 3
  ha := .holds iv.a
  hb := .holds iv.b
  hc := .holds iv.c
  hd := .holds iv.d
  a := .holds iv.a
  b := .holds iv.b
  c := .holds iv.c
  d := .holds iv.d
  m := Vector.ofFn fun j => .holds (BitVec.ofNat 32 j.val)
  blk := .holds 0
  dout := Vector.replicate 32 (.holds 0x30)
  faults := []

/-- The same with other working registers and every message word `x`. -/
def filled (w : SeqWord) (x : Word) : Engine :=
  { ready w with a := .holds x, b := .holds x, c := .holds x, d := .holds x, m := Vector.replicate 16 (.holds x) }

/-- One engine and the moves to come. -/
def one (e : Engine) (agenda : List Event) : State where
  params := Params.default
  engines := [e]
  sel := 0
  agenda := agenda
  reply := .nothing

/-- The engine after one step, where there is one. -/
def engineAfter (s : State) : Option Engine :=
  match step s with
  | .next t => t.cur
  | _ => none

/-- The engine after its core step. -/
def coreStep (e : Engine) : Option Engine := engineAfter (one e [.core 0])

/-- The engine after a host command. -/
def command (e : Engine) (code : Byte) (payload : List Byte) : Option Engine :=
  engineAfter (one e [.host 0 code payload])

/-- What the host receives for a command. -/
def reply (e : Engine) (code : Byte) : Option Reply :=
  match step (one e [.host 0 code []]) with
  | .next t => some t.reply
  | _ => none

/-- What an engine is after a round of `e` (R144): only the working words and `SEQ` change. -/
def rounded (e : Engine) (a b c d : Word) (next : SeqWord) : Option Engine :=
  some { e with a := .holds a, b := .holds b, c := .holds c, d := .holds d, seq := next }

/-- A digest string as `DOUT`. -/
def digestOf (text : String) : List Byte := asciiBytes text

/-! ## WellFormed: each check refuses an ill-formed term -/

theorem test_wf_refuses_roundf : (Instr.roundf 16).wellFormed = false := by decide
theorem test_wf_refuses_roundg : (Instr.roundg 15).wellFormed = false ∧ (Instr.roundg 32).wellFormed = false := by decide
theorem test_wf_refuses_roundh : (Instr.roundh 31).wellFormed = false ∧ (Instr.roundh 48).wellFormed = false := by decide
theorem test_wf_refuses_roundi : (Instr.roundi 47).wellFormed = false := by decide

/-! ## Decoding words written out from R71, R72 and R78 (`OP` = bits 15:12, `RSV` = 11:6, `RI` = 5:0) -/

theorem test_decode_idle : decodeSeq 0b0000_000000_000000#16 = .ok .idle := by decide
theorem test_decode_init : decodeSeq 0b0001_000000_000000#16 = .ok .init := by decide
theorem test_decode_padm : decodeSeq 0b0010_000000_000000#16 = .ok .padm := by decide
theorem test_decode_padz : decodeSeq 0b0011_000000_000000#16 = .ok .padz := by decide
theorem test_decode_aplen : decodeSeq 0b0100_000000_000000#16 = .ok .aplen := by decide
theorem test_decode_loadb : decodeSeq 0b0101_000000_000000#16 = .ok .loadb := by decide
theorem test_decode_roundf : decodeSeq 0b0110_000000_001011#16 = .ok (.roundf 11) := by decide
theorem test_decode_roundg : decodeSeq 0b0110_000000_011101#16 = .ok (.roundg 29) := by decide
theorem test_decode_roundh : decodeSeq 0b0110_000000_101110#16 = .ok (.roundh 46) := by decide
theorem test_decode_roundi : decodeSeq 0b0110_000000_110001#16 = .ok (.roundi 49) := by decide
theorem test_decode_accum : decodeSeq 0b0111_000000_000000#16 = .ok .accum := by decide
theorem test_decode_serial : decodeSeq 0b1000_000000_000000#16 = .ok .serial := by decide
theorem test_decode_done : decodeSeq 0b1001_000000_000000#16 = .ok .done := by decide
theorem test_decode_host : decodeHost 0b0000_0001#8 [0x61] = .ok (.start [0x61]) ∧
    decodeHost 0b0000_0010#8 [] = .ok .rdstat ∧ decodeHost 0b0000_0011#8 [] = .ok .rddig := by decide
/-- Spec 95 section 2.7. -/
theorem test_decode_illegal : decodeSeq 0xA000 = .error (.illegalSeq 0xA000) ∧
    decodeSeq 0xF03F = .error (.illegalSeq 0xF03F) ∧ decodeSeq 0x1001 = .error (.illegalSeq 0x1001) ∧
    decodeSeq 0x6040 = .error (.illegalSeq 0x6040) ∧ decodeSeq 0x0040 = .error (.illegalSeq 0x0040) ∧
    decodeHost 0x00 [] = .error (.illegalHostCmd 0x00) ∧ decodeHost 0x04 [] = .error (.illegalHostCmd 0x04) := by decide
/-- The numbering of spec/opcode_table.json: a 16-bit `SEQ` row and an 8-bit host row. -/
theorem test_decodeTableWord : decodeTableWord 16 0x6010 = some (.roundg 16) ∧ decodeTableWord 16 0xA000 = none ∧
    decodeTableWord 8 0x01 = some (.start []) ∧ decodeTableWord 8 0x05 = none := by decide

/-! ## Values -/

/-- Spec 95 section 2.3, rotl32. -/
theorem test_rotl32 : rotl32 0x80000001 1 = some 0x00000003 ∧ rotl32 0x12345678 31 = some 0x091a2b3c ∧
    rotl32 0xd76aa478 7 = some 0xb5523c6b ∧ rotl32 0x89abcdef 16 = some 0xcdef89ab ∧ rotl32 1 0 = none ∧
    rotl32 1 32 = none := by decide
/-- Spec 95 section 2.3, the fifth and sixth rows of the auxiliary functions. -/
theorem test_aux : auxF 0x0f0f0f0f 0x00ff00ff 0x33333333 = 0x303f303f ∧ auxG 0x0f0f0f0f 0x00ff00ff 0x33333333 = 0x03cf03cf ∧
    auxH 0x0f0f0f0f 0x00ff00ff 0x33333333 = 0x3cc33cc3 ∧ auxI 0x0f0f0f0f 0x00ff00ff 0x33333333 = 0xcf30cf30 ∧
    auxF iv.b iv.c iv.d = 0x98badcfe ∧ auxG iv.b iv.c iv.d = 0x88888888 ∧ auxH iv.b iv.c iv.d = 0x67452301 ∧
    auxI iv.b iv.c iv.d = 0x77777777 := by decide
/-- Spec 42 rule R146: rows 17, 38, 61 and 63 of the round schedule. -/
theorem test_schedule : ((msgIndex 17).val, shiftAmount 17, roundConst 17) = (6, 9, 0xC040B340) ∧
    ((msgIndex 38).val, shiftAmount 38, roundConst 38) = (7, 16, 0xF6BB4B60) ∧
    ((msgIndex 61).val, shiftAmount 61, roundConst 61) = (11, 10, 0xBD3AF235) ∧
    ((msgIndex 63).val, shiftAmount 63, roundConst 63) = (9, 21, 0xEB86D391) := by decide
/-- Spec 95 section 2.1: the length field at L = 2^29 and 2^61 + 1. -/
theorem test_bitLength : leBytes 8 (bitLength (BitVec.ofNat 64 (2 ^ 29))).toNat = [0, 0, 0, 0, 1, 0, 0, 0] ∧
    leBytes 8 (bitLength (BitVec.ofNat 64 (2 ^ 61 + 1))).toNat = [8, 0, 0, 0, 0, 0, 0, 0] := by decide
/-- Spec 95 section 2.1: z, nb and N at L = 3, 55, 56, 120. -/
theorem test_counts : (zeroCount 3, blockCount 3, stepCount 3) = (52, 1, 122) ∧
    (zeroCount 55, blockCount 55, stepCount 55) = (0, 1, 70) ∧ (zeroCount 56, blockCount 56, stepCount 56) = (63, 2, 199) ∧
    (zeroCount 120, blockCount 120, stepCount 120) = (63, 3, 265) := by decide

/-! ## One step of each instruction -/

/-- Spec 95 section 2.1, INIT after START "abc". -/
theorem test_init : coreStep (filled 0x1000 0) = some { filled 0x2000 0 with
    ol := .holds 3, ha := .holds 0x67452301, hb := .holds 0xefcdab89, hc := .holds 0x98badcfe, hd := .holds 0x10325476,
    blk := .holds 0 } := by decide +kernel
theorem test_init_unwritten : (coreStep { Engine.reset with seq := 0x1000 }).map (·.faults) =
    some [.unwrittenRead 0x1000 .buf] := by decide
/-- Spec 95 section 2.1, PADM on "abc" and on 55 bytes. -/
theorem test_padm : (coreStep (ready 0x2000)).map (fun e => (e.buf, e.seq)) =
    some (.holds [(0, 0x61), (1, 0x62), (2, 0x63), (3, 0x80)], 0x3000) := by decide
theorem test_padm_to_aplen :
    (coreStep { ready 0x2000 with buf := .holds (Memory.ofBytes (List.replicate 55 0x61)) }).map (·.seq) = some 0x4000 := by
  decide +kernel
/-- Spec 95 section 2.1, PADZ at 55 and at 57 bytes. -/
theorem test_padz_to_aplen :
    (coreStep { ready 0x3000 with buf := .holds (Memory.ofBytes (List.replicate 55 0x61)) }).map (fun e => (e.buf, e.seq)) =
      some (.holds (Memory.ofBytes (List.replicate 55 0x61 ++ [0x00])), 0x4000) := by decide +kernel
theorem test_padz_again :
    (coreStep { ready 0x3000 with buf := .holds (Memory.ofBytes (List.replicate 57 0x61)) }).map (·.seq) = some 0x3000 := by
  decide +kernel
/-- Spec 95 section 2.1, APLEN with `OL` = 3 at 56 bytes. -/
theorem test_aplen :
    (coreStep { ready 0x4000 with buf := .holds (Memory.ofBytes (List.replicate 56 0x61)) }).map (fun e => (e.buf, e.seq)) =
      some (.holds (Memory.ofBytes (List.replicate 56 0x61 ++ [0x18, 0, 0, 0, 0, 0, 0, 0])), 0x5000) := by decide +kernel
/-- Spec 95 section 2.2: 128 bytes 00..3f ff..c0. -/
def twoBlocks : Memory :=
  Memory.ofBytes ((List.range 64).map (BitVec.ofNat 8) ++ (List.range 64).map fun n => BitVec.ofNat 8 (255 - n))
theorem test_loadb_second_block :
    (coreStep { ready 0x5000 with buf := .holds twoBlocks, blk := .holds 1, a := .unwritten }).map
      (fun e => ([e.m[0], e.m[7], e.m[15], e.a, e.d], e.seq)) =
      some ([.holds 0xfcfdfeff, .holds 0xe0e1e2e3, .holds 0xc0c1c2c3, .holds 0x67452301, .holds 0x10325476], 0x6000) := by
  decide +kernel
/-- Spec 95 section 2.8, last paragraph. -/
theorem test_loadb_after_reset : (coreStep { Engine.reset with seq := 0x5000 }).map (·.faults) =
    some [.unwrittenRead 0x5000 .blk] := by decide
/-- Spec 95 section 2.3: rounds 0 and 15. -/
theorem test_roundf_first : coreStep (filled 0x6000 0) = rounded (filled 0x6000 0) 0 0xb5523c6b 0 0 0x6001 ∧
    coreStep (filled 0x6000 0xffffffff) = rounded (filled 0x6000 0xffffffff) 0xffffffff 0xb5523aea 0xffffffff 0xffffffff 0x6001 ∧
    coreStep (ready 0x6000) = rounded (ready 0x6000) 0x10325476 0xa51fe774 0xefcdab89 0x98badcfe 0x6001 := by decide +kernel
theorem test_roundf_last : coreStep (filled 0x600f 0) = rounded (filled 0x600f 0) 0 0x08526d02 0 0 0x6010 ∧
    coreStep (ready 0x600f) = rounded (ready 0x600f) 0x10325476 0xfba0188b 0xefcdab89 0x98badcfe 0x6010 := by decide +kernel
/-- Spec 95 section 2.3: rounds 16 and 31. -/
theorem test_roundg_first : coreStep (filled 0x6010 0xffffffff) = rounded (filled 0x6010 0xffffffff) 0xffffffff 0xc3c4abfd 0xffffffff 0xffffffff 0x6011 ∧
    coreStep (ready 0x6010) = rounded (ready 0x6010) 0x10325476 0xad47c925 0xefcdab89 0x98badcfe 0x6011 := by decide +kernel
theorem test_roundg_last : coreStep (filled 0x601f 0) = rounded (filled 0x601f 0) 0 0xc8a8d2a4 0 0 0x6020 ∧
    coreStep (ready 0x601f) = rounded (ready 0x601f) 0x10325476 0x71c57b08 0xefcdab89 0x98badcfe 0x6020 := by decide +kernel
/-- Spec 95 section 2.3: rounds 32 and 47. -/
theorem test_roundh_first : coreStep (filled 0x6020 0xffffffff) = rounded (filled 0x6020 0xffffffff) 0xffffffff 0xffa393fe 0xffffffff 0xffffffff 0x6021 ∧
    coreStep (ready 0x6020) = rounded (ready 0x6020) 0x10325476 0xd815a025 0xefcdab89 0x98badcfe 0x6021 := by decide +kernel
theorem test_roundh_last : coreStep (filled 0x602f 0) = rounded (filled 0x602f 0) 0 0x32e2562b 0 0 0x6030 ∧
    coreStep (ready 0x602f) = rounded (ready 0x602f) 0x10325476 0x249746d7 0xefcdab89 0x98badcfe 0x6030 := by decide +kernel
/-- Spec 95 section 2.3: rounds 48 and 63. -/
theorem test_roundi_first : coreStep (filled 0x6030 0xffffffff) = rounded (filled 0x6030 0xffffffff) 0xffffffff 0x0a4890bc 0xffffffff 0xffffffff 0x6031 ∧
    coreStep (ready 0x6030) = rounded (ready 0x6030) 0x10325476 0xa93cdabd 0xefcdab89 0x98badcfe 0x6031 := by decide +kernel
theorem test_roundi_last : coreStep (filled 0x603f 0) = rounded (filled 0x603f 0) 0 0x721d70da 0 0 0x7000 ∧
    coreStep (ready 0x603f) = rounded (ready 0x603f) 0x10325476 0xb226f3f6 0xefcdab89 0x98badcfe 0x7000 := by decide +kernel
/-- Spec 95 section 2.4, the first two rows. -/
def carries (len : Nat) : Engine :=
  { ready 0x7000 with
    ha := .holds 0xffffffff, hb := .holds 0x80000000, hc := .holds 0x00000001, hd := .holds 0x12345678
    a := .holds 0x00000001, b := .holds 0x80000000, c := .holds 0xffffffff, d := .holds 0x87654321
    buf := .holds (Memory.ofBytes (List.replicate len 0)) }
theorem test_accum : coreStep (carries 64) = some { carries 64 with
    ha := .holds 0, hb := .holds 0, hc := .holds 0, hd := .holds 0x99999999, blk := .holds 1, seq := 0x8000 } := by
  decide +kernel
theorem test_accum_next_block : (coreStep (carries 128)).map (fun e => (e.blk, e.seq)) = some (.holds 1, 0x5000) := by
  decide +kernel
/-- Spec 95 section 2.5, rows 1 and 3. -/
theorem test_serial :
    (coreStep { ready 0x8000 with ha := .holds 1, hb := .holds 0x0a0b0c0d, hc := .holds 0xffffffff, hd := .holds 0x10203040 }).map
      (fun e => (e.dout.toList, e.seq)) =
      some ((digestOf "010000000d0c0b0affffffff40302010").map .holds, 0x9000) := by decide +kernel
theorem test_serial_empty_message :
    (digestChars ⟨0xd98c1dd4, 0x04b2008f, 0x980980e9, 0x7e42f8ec⟩).toList = digestOf "d41d8cd98f00b204e9800998ecf8427e" := by
  decide +kernel
/-- Spec 95 section 2.7: no core step in IDLE and DONE. -/
theorem test_idle : coreStep (ready 0x0000) = some (ready 0x0000) := by decide +kernel
theorem test_done : coreStep (ready 0x9000) = some (ready 0x9000) := by decide +kernel
/-- Spec 95 section 2.7: an illegal word. -/
theorem test_illegal_word : coreStep (ready 0xA000) = some { ready 0xA000 with faults := [.illegalSeq 0xA000] } := by
  decide +kernel
/-- Spec 95 section 2.8, rows 1 to 3. -/
theorem test_start : command Engine.reset 0x01 [0x61, 0x62, 0x63] =
    some { Engine.reset with buf := .holds [(0, 0x61), (1, 0x62), (2, 0x63)], seq := 0x1000 } ∧
    command (ready 0x9000) 0x01 [] = some { ready 0x1000 with buf := .holds [] } := by decide +kernel
theorem test_start_while_busy : command (ready 0x3000) 0x01 [0x78] =
    some { ready 0x3000 with faults := [.startWhileBusy 0x3000 0x01] } := by decide +kernel
/-- Spec 95 section 2.8, `MAX_MSG_BYTES` = 16 and 17 bytes. -/
theorem test_start_not_admitted :
    engineAfter { one Engine.reset [.host 0 0x01 (List.replicate 17 0)] with params := ⟨some 16, none⟩ } =
      some Engine.reset := by decide +kernel
/-- Spec 95 section 2.8, RDSTAT. -/
theorem test_rdstat : reply Engine.reset 0x02 = some (.status 0x00) ∧ reply (ready 0x6020) 0x02 = some (.status 0x01) ∧
    reply (ready 0x9000) 0x02 = some (.status 0x02) := by decide +kernel
/-- Spec 95 section 2.8, RDDIG. -/
theorem test_rddig : reply (ready 0x9000) 0x03 = some (.digest (Vector.replicate 32 0x30)) := by decide +kernel
theorem test_rddig_early : command Engine.reset 0x03 [] =
    some { Engine.reset with faults := [.earlyDigestRead 0x0000 0x03] } := by decide +kernel
/-- Spec 95 section 2.8, a reserved code. -/
theorem test_reserved_code : command (ready 0x6020) 0x04 [] =
    some { ready 0x6020 with faults := [.illegalHostCmd 0x6020 0x04] } := by decide +kernel
/-- The placed word is the next to run (log 15). -/
theorem test_withFetchWord : engineAfter ((one (ready 0x9000) []).withFetchWord 16 0x2000) = coreStep (ready 0x2000) ∧
    engineAfter ((one (ready 0x9000) []).withFetchWord 8 0x01) = command (ready 0x9000) 0x01 [] := by decide +kernel

/-- Engine 0 faulted, engine 1 in DONE, engine 2 at INIT; each message fits. -/
def three : State where
  params := ⟨some 56, some 2⟩
  engines := [{ ready 0x6020 with faults := [.illegalHostCmd 0x6020 0x04] }, ready 0x9000,
    { ready 0x1000 with buf := .holds [] }]
  sel := 2
  agenda := []
  reply := .nothing

/-- R187: a poll that reads DONE = 0 leaves a core step of every engine before the next poll, the faulted one it waits on
and those it does not wait on alike. -/
theorem test_wait_passes_over_no_engine :
    (match step { three with agenda := [.wait 0, .core 1] } with | .next t => t.agenda | _ => []) =
      [.core 0, .core 1, .core 2, .wait 0, .core 1] := by decide +kernel

/-! ## The digest function on the spec's messages (spec 95 sections 1 and 2.6) -/

theorem test_md5_empty : (md5 []).toList = digestOf "d41d8cd98f00b204e9800998ecf8427e" := by decide +kernel
theorem test_md5_abc : (md5 (asciiBytes "abc")).toList = digestOf "900150983cd24fb0d6963f7d28e17f72" := by decide +kernel
theorem test_md5_fox : (md5 (asciiBytes "The quick brown fox jumps over the lazy dog")).toList =
    digestOf "9e107d9d372bb6826bd81d3542a419d6" := by decide +kernel
theorem test_md5_two_blocks : (md5 (List.replicate 56 0x61)).toList = digestOf "3b0c8ac703f828b04c6c197006d17218" := by
  decide +kernel

/-! ## Witnesses: the hypotheses of each obligation, met by a concrete state and operands -/

/-- Right after START of `msg` on reset. -/
def started (msg : List Byte) : Engine := Engine.reset.load msg

theorem witness_EncodedInstructionDecodesToItself : (Instr.roundg 16).wellFormed = true ∧ (Instr.roundg 31).wellFormed = true ∧
    (Instr.start [0xFF]).wellFormed = true := by decide
theorem witness_AcceptedWordIsTheEncodingOfItsInstruction : decodeSeq 0x603F = .ok (.roundi 63) ∧
    decodeHost 0x01 [0x61] = .ok (.start [0x61]) ∧ decodeHost 0x02 [0xFF] = .ok .rdstat := by decide
theorem witness_IllegalControlWordsFaultAndAreNeverWritten :
    (one (ready 0xA000) [.core 0]).agenda = [.core 0] ∧ (one (ready 0xA000) [.core 0]).engines[0]? = some (ready 0xA000) ∧
    ((one (ready 0xA000) []).agenda = [] ∧ 0 = (one (ready 0xA000) []).turn) ∧
    (ready 0xA000).faults = [] ∧ decodeSeq (ready 0xA000).seq = .error (.illegalSeq (ready 0xA000).seq) ∧
    ∃ t, step (one (ready 0x603F) [.core 0]) = .next t ∧ (t.engines[0]?.map (·.seq)) = some 0x7000 :=
  ⟨rfl, rfl, ⟨rfl, rfl⟩, rfl, by decide, _, rfl, by decide +kernel⟩
theorem witness_CoreStepRunsTheDecodedMicroOperation :
    (three.agenda = [] ∧ three.turn = 0 ∧ (one (ready 0x603F) [.core 0]).agenda = [.core 0]) ∧
    (one (ready 0x603F) [.core 0]).engines[0]? = some (ready 0x603F) ∧ (ready 0x603F).faults = [] ∧
    decodeSeq (ready 0x603F).seq = .ok (.roundi 63) ∧ decodeSeq (ready 0x9000).seq = .ok .done := by
  refine ⟨⟨rfl, rfl, rfl⟩, rfl, rfl, by decide, by decide⟩
theorem witness_HostMoveRunsTheDecodedCommand :
    (one (ready 0x9000) [.host 0 0x03 [0x01]]).engines[0]? = some (ready 0x9000) ∧ decodeHost 0x03 [0x01] = .ok .rddig ∧
    (one (ready 0x6000) [.wait 0]).agenda = [.wait 0] ∧ (ready 0x6000).seq.extractLsb' 12 4 ≠ 9#4 ∧
    (ready 0x9000).seq.extractLsb' 12 4 = 9#4 := ⟨rfl, rfl, rfl, by decide, by decide⟩
theorem witness_ReservedHostCodeRaisesIllegalHostCmd : (one (ready 0x6020) [.host 0 0x04 []]).agenda = [.host 0 0x04 []] ∧
    (one (ready 0x6020) [.host 0 0x04 []]).engines[0]? = some (ready 0x6020) ∧
    (0x04#8 ≠ 0x01#8 ∧ 0x04#8 ≠ 0x02#8 ∧ 0x04#8 ≠ 0x03#8) ∧ (0x00#8 ≠ 0x01#8 ∧ 0x00#8 ≠ 0x02#8 ∧ 0x00#8 ≠ 0x03#8) :=
  ⟨rfl, rfl, by decide, by decide⟩
theorem witness_FaultedEngineTakesNoCoreStep : (three.agenda = [] ∧ 0 = three.turn) ∧
    ∃ e, ({ three with agenda := [.core 0] } : State).engines[0]? = some e ∧ e.faults ≠ [] := ⟨⟨rfl, rfl⟩, _, rfl, by simp⟩
theorem witness_OnlyResetClearsTheFaultRecord :
    (∃ t e e', step { three with agenda := [.reset 0] } = .next t ∧ three.engines[0]? = some e ∧ t.engines[0]? = some e' ∧
      e.faults ≠ [] ∧ e'.faults = []) ∧
    ∃ t e e', step { three with agenda := [.host 0 0x03 []] } = .next t ∧ three.engines[0]? = some e ∧
      t.engines[0]? = some e' ∧ e'.faults = [.illegalHostCmd 0x6020 0x04, .earlyDigestRead 0x6020 0x03] :=
  ⟨⟨_, _, _, rfl, rfl, rfl, by simp, rfl⟩, _, _, _, rfl, rfl, rfl, by decide +kernel⟩
theorem witness_ResetGivesTheResetValues : ∃ e, ({ three with agenda := [.reset 1] } : State).agenda = .reset 1 :: [] ∧
    ({ three with agenda := [.reset 1] } : State).engines[1]? = some e := ⟨_, rfl, rfl⟩
theorem witness_PowerOnLeavesEveryEngineInReset : 2 < 3 ∧ (State.powerOn ⟨some 56, some 2⟩ 3).engines[2]?.isSome = true :=
  ⟨by decide, rfl⟩
theorem witness_InitCapturesLengthAndLoadsTheInitialState :
    ((one (started [0x61]) []).cur = some (started [0x61]) ∧ (started [0x61]).buf = .holds [(0, 0x61)]) ∧
    (one Engine.reset []).cur = some Engine.reset ∧ Engine.reset.buf = .unwritten := ⟨⟨rfl, rfl⟩, rfl, rfl⟩
/-- For PADM, PADZ, APLEN, ACCUM, SERIAL, IDLE and DONE: a state whose engine holds every operand. -/
theorem witness_ready_operands : (one (ready 0x7000) []).cur = some (ready 0x7000) ∧
    (ready 0x7000).buf = .holds (Memory.ofBytes (asciiBytes "abc")) ∧ (ready 0x7000).ol = .holds 3 ∧
    (ready 0x7000).blk = .holds 0 ∧ (ready 0x7000).HoldsH iv ∧ (ready 0x7000).HoldsW iv :=
  ⟨rfl, rfl, rfl, rfl, ⟨rfl, rfl, rfl, rfl⟩, ⟨rfl, rfl, rfl, rfl⟩⟩
theorem witness_LoadbLoadsTheBlockLittleEndian : (ready 0x5000).HoldsH iv ∧
    ∀ t, t < 64 → twoBlocks.byteAt (64 * 1 + t) = some (BitVec.ofNat 8 (255 - t)) :=
  ⟨⟨rfl, rfl, rfl, rfl⟩, by decide +kernel⟩
/-- The last index in range and the first out of it: 63 bytes, and none. -/
theorem witness_LoadbPastTheEndRaisesBufRange : (ready 0x5000).HoldsH iv ∧ (ready 0x5000).blk = .holds 0 ∧
    (Memory.ofBytes (List.replicate 63 0)).wf = true ∧ (Memory.ofBytes (List.replicate 63 0)).len < 64 * 0 + 64 ∧
    Memory.wf [] = true ∧ Memory.len [] < 64 * 0 + 64 := ⟨⟨rfl, rfl, rfl, rfl⟩, rfl, by decide +kernel⟩
/-- Each clause at both ends of its quarter. -/
theorem witness_RoundsUpdateTheWorkingWordsTogether : (ready 0x6000).HoldsW iv ∧
    (∀ g : Fin 16, (ready 0x6000).m[g] = .holds (BitVec.ofNat 32 g.val)) ∧
    (∀ n : Nat, n = 0 ∨ n = 15 → (BitVec.ofNat 6 n).toNat < 16 ∧ n < 16) ∧
    (∀ i : RoundIndex, i = 16 ∨ i = 31 → 16 ≤ i.toNat ∧ i.toNat < 32 ∧ (5 * i.toNat + 1) % 16 < 16) ∧
    (∀ i : RoundIndex, i = 32 ∨ i = 47 → 32 ≤ i.toNat ∧ i.toNat < 48 ∧ (3 * i.toNat + 5) % 16 < 16) ∧
    (∀ i : RoundIndex, i = 48 ∨ i = 63 → 48 ≤ i.toNat ∧ (7 * i.toNat) % 16 < 16) :=
  ⟨⟨rfl, rfl, rfl, rfl⟩, by decide, by rintro _ (rfl | rfl) <;> decide, by decide, by decide, by decide⟩
theorem witness_AccumAddsTheBlockAndAdvances :
    ((one (ready 0x7000) []).params.blkBits = none → 1 = 0 + 1) ∧
    (∀ n, three.params.blkBits = some n → 1 = (0 + 1) % 2 ^ n) ∧ ∃ h : Quad, (carries 64).HoldsH h :=
  ⟨fun _ => rfl, by rintro n ⟨⟩; rfl, ⟨0xffffffff, 0x80000000, 1, 0x12345678⟩, rfl, rfl, rfl, rfl⟩
theorem witness_FirstUnwrittenOperandIsRecorded :
    (Engine.operands Engine.reset .loadb).find? (fun r => !r.2) = some (.blk, false) ∧
    (Engine.operands { ready 0 with a := .unwritten, m := Vector.replicate 16 .unwritten } (.roundf 0)).find? (fun r => !r.2) =
      some (.a, false) ∧
    (Engine.operands { ready 0 with buf := .unwritten } .accum).find? (fun r => !r.2) = some (.buf, false) := by
  decide +kernel
/-- Each clause, the admitted length at its bound. -/
theorem witness_StartLoadsTheMessage :
    (∀ n, three.params.maxMsgBytes = some n → (List.replicate 56 (0x61 : Byte)).length ≤ n) ∧
    (∃ n, three.params.maxMsgBytes = some n ∧ n < (List.replicate 57 (0x61 : Byte)).length) ∧
    Engine.reset.seq.extractLsb' 12 4 = 0#4 ∧ (ready 0x9000).seq.extractLsb' 12 4 = 9#4 ∧
    (ready 0x8000).seq.extractLsb' 12 4 ≠ 0#4 ∧ (ready 0x8000).seq.extractLsb' 12 4 ≠ 9#4 :=
  ⟨by rintro n ⟨⟩; decide, ⟨56, rfl, by decide⟩, by decide, by decide, by decide, by decide⟩
theorem witness_RddigAnswersTheDigestOnlyInDone : (one (ready 0x9000) []).cur = some (ready 0x9000) ∧
    (∀ n : Fin 32, (ready 0x9000).dout[n] = .holds (Vector.replicate 32 0x30 : Vector Byte 32)[n]) ∧
    (ready 0x8000).seq.extractLsb' 12 4 ≠ 9#4 := ⟨rfl, by decide +kernel, by decide⟩
/-- The first and the last character unwritten. -/
theorem witness_RddigOfAnUnwrittenDigestFaults :
    ((Engine.reset.withSeq 0x9000).dout[(0 : Fin 32)] = .unwritten ∧
      ∀ n' : Fin 32, n' < 0 → (Engine.reset.withSeq 0x9000).dout[n'] ≠ .unwritten) ∧
    (((ready 0x9000).dout.set 31 .unwritten)[(31 : Fin 32)] = .unwritten ∧
      ∀ n' : Fin 32, n' < 31 → ((ready 0x9000).dout.set 31 .unwritten)[n'] ≠ .unwritten) := by decide +kernel
/-- For the frames: a step of each family on a state that meets the hypotheses. -/
theorem witness_frames :
    (∃ t e', exec .aplen (one (ready 0x4000) []) = .next t ∧ t.cur = some e') ∧
    (∃ t e', exec .loadb (one { ready 0x5000 with buf := .holds twoBlocks } []) = .next t ∧ t.cur = some e') ∧
    (∃ t e', exec (.roundh 47) (one (ready 0x602F) []) = .next t ∧ t.cur = some e') ∧
    (∃ t e', exec .rddig (one (ready 0x9000) []) = .next t ∧ t.cur = some e') ∧
    (one (ready 0x4000) []).cur = some (ready 0x4000) :=
  ⟨⟨_, _, rfl, rfl⟩, ⟨_, _, rfl, rfl⟩, ⟨_, _, rfl, rfl⟩, ⟨_, _, rfl, rfl⟩, rfl⟩
theorem witness_FaultingInstructionWritesNothingElse : ∃ t e', exec .rddig (one (ready 0x8000) []) = .next t ∧
    t.cur = some e' ∧ .earlyDigestRead 0x8000 0x03 ∈ e'.faults ∧ .earlyDigestRead 0x8000 0x03 ∉ (ready 0x8000).faults :=
  ⟨_, _, rfl, rfl, by decide +kernel, by decide⟩
theorem witness_OnlyTheAddressedEngineChanges : ∃ t, step { three with agenda := [.core 2] } = .next t ∧ t.sel = 2 :=
  ⟨_, rfl, rfl⟩
/-- `three` with other engines beside engine 2 and another move to come. -/
def three' : State where
  params := three.params
  engines := [Engine.reset, Engine.reset, { ready 0x1000 with buf := .holds [] }]
  sel := 0
  agenda := [.core 2, .core 1]
  reply := .nothing
theorem witness_AnEngineEvolvesFromItselfAlone : (∃ t, step { three with agenda := [.core 2] } = .next t) ∧
    three.params = three'.params ∧ three'.agenda = [.core 2, .core 1] ∧
    three.engines[(Event.core 2).target]? = three'.engines[(Event.core 2).target]? := ⟨⟨_, rfl⟩, rfl, rfl, rfl⟩
theorem witness_CoreStepsOnlyAppendToTheBuffer : ∃ t e' buf, step (one (ready 0x4000) [.core 0]) = .next t ∧
    (one (ready 0x4000) [.core 0]).engines[0]? = some (ready 0x4000) ∧ t.engines[0]? = some e' ∧
    (ready 0x4000).buf = .holds buf := ⟨_, _, _, rfl, rfl, rfl, rfl⟩
theorem witness_EveryStepKeepsTheBufferCanonical : ∃ t, step (one (ready 0x4000) [.core 0]) = .next t ∧
    ∀ e ∈ (one (ready 0x4000) [.core 0]).engines, ∀ buf, e.buf = .holds buf → buf.wf = true := by
  refine ⟨_, rfl, ?_⟩
  intro e he buf hb
  simp only [one, List.mem_singleton] at he
  subst he
  cases hb
  decide
/-- R9's constraint at its bound, and with everything unbounded. -/
theorem witness_PowerOnHasTheInvariant : Params.default.fits = true ∧ (⟨some 56, some 2⟩ : Params).fits = true ∧ 0 < 1 := by
  decide

/-- An engine that just started has the invariant. -/
theorem inv_started (agenda : List Event) (msg : List Byte) : (one (started msg) agenda).Inv := by
  refine ⟨rfl, Nat.one_pos, ?_⟩
  intro e he
  simp only [one, List.mem_singleton] at he
  subst he
  have hd : decodeSeq (enc 0x1#4 0#6) = .ok .init := by decide
  exact ⟨List.nodup_nil, .init, hd, .inr ⟨msg, rfl, rfl⟩⟩
theorem witness_EveryStepKeepsTheInvariant : ∃ t, (one (started [0x61]) [.core 0]).Inv ∧
    step (one (started [0x61]) [.core 0]) = .next t := ⟨_, inv_started _ _, rfl⟩
theorem witness_OnlyHostDutyFaultsAreReachable : ∃ t e', (one (started [0x61]) [.host 0 0x03 []]).Inv ∧
    step (one (started [0x61]) [.host 0 0x03 []]) = .next t ∧ t.engines[0]? = some e' ∧
    .earlyDigestRead 0x1000 0x03 ∈ e'.faults := ⟨_, _, inv_started _ _, rfl, rfl, by decide +kernel⟩
theorem witness_NoFaultWhileTheHostKeepsItsDuties : ∃ t, (one (started [0x61]) [.host 0 0x02 []]).Inv ∧
    (one (started [0x61]) [.host 0 0x02 []]).dutyKept = true ∧ step (one (started [0x61]) [.host 0 0x02 []]) = .next t :=
  ⟨_, inv_started _ _, by decide, rfl⟩
/-- The engine at the LOADB of the empty message's one block. -/
def atLoadb : Engine :=
  { Engine.reset.withH iv with
    seq := 0x5000, buf := .holds (Memory.ofBytes (padMessage [])), ol := .holds 0, blk := .holds 0 }
theorem witness_BufferAndCounterStayInBounds : ({ one atLoadb [] with params := ⟨some 0, some 1⟩ } : State).Inv ∧
    decodeSeq atLoadb.seq = .ok .loadb ∧ ∃ buf, atLoadb.buf = .holds buf := by
  refine ⟨⟨by decide, by decide, ?_⟩, by decide, _, rfl⟩
  intro e he
  simp only [one, List.mem_singleton] at he
  subst he
  refine ⟨by decide, .loadb, by decide, .inr ⟨[], by decide, 0, by decide, rfl, rfl, ?_, rfl⟩⟩
  exact ⟨rfl, rfl, rfl, rfl⟩
/-- For the statements about whole runs: START of 0, 55 and 56 bytes. -/
theorem witness_runs (msg : List Byte) (h : msg.length ≤ 56) (agenda : List Event) :
    three.params.fits = true ∧ three.params.admits msg.length = true ∧
    (one (started msg) agenda).engines[0]? = some (started msg) ∧ (started msg).faults = [] ∧
    (started msg).seq = 0x1000#16 ∧ (started msg).buf = .holds (Memory.ofBytes msg) ∧
    busy Engine.reset.seq = false ∧ busy (ready 0x9000).seq = false := by
  refine ⟨by decide, ?_, rfl, rfl, rfl, rfl, by decide, by decide⟩
  simpa [three, Params.admits] using h
/-- The core steps of a run of the empty message on engine 2, with an RDSTAT and other engines' moves among them. -/
def mixedMoves : List Event :=
  [.core 2, .reset 1, .host 2 0x02 [], .host 0 0x05 []] ++ List.replicate 124 (.core 2)
theorem witness_InterleavingsDoNotChangeTheDigest :
    three.params.fits = true ∧ three.params.admits 0 = true ∧
    three.engines[2]? = some { ready 0x1000 with buf := .holds (Memory.ofBytes []) } ∧
    (∀ ev ∈ mixedMoves, ev.target < three.engines.length ∧
      (ev.target = 2 → ev = .core 2 ∨ ∃ payload, ev = .host 2 0x02#8 payload) ∧ ∀ j, ev ≠ .wait j) ∧
    mixedMoves.count (.core 2) = stepCount 0 := by
  refine ⟨by decide, by decide, rfl, ?_, by decide +kernel⟩
  intro ev hev
  simp only [mixedMoves, List.mem_append, List.mem_cons, List.not_mem_nil, or_false, List.mem_replicate] at hev
  rcases hev with (rfl | rfl | rfl | rfl) | ⟨-, rfl⟩ <;> simp [Event.target, three]
theorem witness_EveryEngineTakesItsTurn : three.agenda = [] ∧ three.sel < three.engines.length ∧ 2 < three.engines.length := by
  decide +kernel
/-- A WAIT on the faulted engine 0, which never ends, before another move. -/
theorem witness_EveryEngineComesToItsCoreStepWhateverTheAgenda : 2 < three.engines.length ∧
    ∀ ev ∈ [Event.wait 0, .reset 2], ev.target < three.engines.length := by decide
theorem witness_BufferReadsBackWhatWasAppended : Memory.wf [] = true ∧ 0 < 8 ∧ 2 ^ 64 - 1 < 2 ^ (8 * 8) := by decide
/-- The statements about values, at the ends of their ranges. -/
theorem witness_values : (rotl32 1 1).isSome = true ∧ (rotl32 1 31).isSome = true ∧ rotl32 1 0 = none ∧ rotl32 1 32 = none ∧
    (statusOf 0x9000).getLsbD 2 = false ∧ (hexChar 9).toNat = 0x39 ∧ (hexChar 10).toNat = 0x61 ∧ 55 % 64 ≤ 55 ∧ 56 ≤ 56 % 64 := by
  decide

end Sys2Proof.Tests
end

section
/-!
PROOF. The scope statements (spec/00_scope.md): power-on, the canonical form of the buffers, and that an engine evolves from
itself alone.
-/

namespace Sys2Proof.Machine

/-! ## Power-on -/

/-- Settles O11: each engine of a machine just powered on is `Engine.reset` (R38, R40). -/
theorem powerOnLeavesEveryEngineInReset : Obligations.PowerOnLeavesEveryEngineInReset := by
  intro p n k hk
  have hget : (State.powerOn p n).engines[k]? = some Engine.reset := List.getElem?_replicate_of_lt hk
  exact ⟨Engine.reset, hget, rfl, rfl, rfl, Engine.allUnwritten_reset⟩

/-! ## The canonical form of the buffers -/

/-- What a micro-operation's writes do to `BUF` (R53): nothing, or they append at most 8 bytes. -/
theorem perform_buf {i : Instr} {perform : Params → Engine → Except CoreFault Engine} {p : Params} {e e1 : Engine}
    (hp : performOf i = some perform) (h : perform p e = .ok e1) :
    e1.buf = e.buf ∨ ∃ buf xs, e.buf = .holds buf ∧ e1.buf = .holds (buf.append xs) ∧ xs.length ≤ 8 := by
  cases i <;> simp only [performOf, reduceCtorEq, Option.some.injEq] at hp <;> subst hp
  case init => obtain ⟨_, -, rfl⟩ := performInit_eq_ok.mp h; exact .inl rfl
  case padm =>
    obtain ⟨buf, hb, rfl⟩ := performPadm_eq_ok.mp h
    exact .inr ⟨buf, leBytes 1 0x80, hb, rfl, by simp⟩
  case padz =>
    obtain ⟨buf, hb, rfl⟩ := performPadz_eq_ok.mp h
    exact .inr ⟨buf, leBytes 1 0x00, hb, rfl, by simp⟩
  case aplen =>
    obtain ⟨ol, -, buf, hb, rfl⟩ := performAplen_eq_ok.mp h
    exact .inr ⟨buf, leBytes 8 (bitLength ol).toNat, hb, rfl, by simp⟩
  case loadb => obtain ⟨_, -, _, -, _, -, -, rfl⟩ := performLoadb_eq_ok.mp h; exact .inl rfl
  case accum => obtain ⟨_, _, _, -, -, -, -, -, -, -, -, -, rfl⟩ := performAccum_eq_ok.mp h; exact .inl rfl
  case serial => obtain ⟨_, -, rfl⟩ := performSerial_eq_ok.mp h; exact .inl rfl
  all_goals obtain ⟨_, _, -, -, -, -, -, _, -, rfl⟩ := roundStep_eq_ok.mp h; exact .inl rfl

/-- The engine's buffer, where it holds one, is in canonical form (R12, R50). -/
def Engine.BufCanonical (e : Engine) : Prop := ∀ buf, e.buf = .holds buf → buf.wf = true

theorem Engine.bufCanonical_of_eq {e e' : Engine} (h : e.BufCanonical) (hb : e'.buf = e.buf) : e'.BufCanonical :=
  fun buf hbuf => h buf (hb ▸ hbuf)

theorem Engine.bufCanonical_of_holds {e : Engine} {buf : Memory} (hb : e.buf = .holds buf) (hw : buf.wf = true) :
    e.BufCanonical := fun _ hbuf => Reg.holds.inj (hb.symm.trans hbuf) ▸ hw

theorem Engine.bufCanonical_load (e : Engine) (msg : List Byte) : (e.load msg).BufCanonical :=
  Engine.bufCanonical_of_holds (Engine.load_buf e msg) (Memory.wf_ofBytes msg)

theorem Engine.bufCanonical_reset : Engine.reset.BufCanonical := nofun

theorem perform_bufCanonical {i : Instr} {perform : Params → Engine → Except CoreFault Engine} {p : Params}
    {e e1 : Engine} (hp : performOf i = some perform) (h : perform p e = .ok e1) (he : e.BufCanonical) :
    e1.BufCanonical := by
  obtain hb | ⟨buf, xs, hb, hb1, -⟩ := perform_buf hp h
  · exact Engine.bufCanonical_of_eq he hb
  · exact Engine.bufCanonical_of_holds hb1 (Memory.wf_append (he buf hb) xs)

theorem exec_bufCanonical {i : Instr} {s t : State} {e e' : Engine} (h : exec i s = .next t) (hc : s.cur = some e)
    (hc' : t.cur = some e') (he : e.BufCanonical) : e'.BufCanonical := by
  obtain ⟨f, rfl, -⟩ | ⟨_, e1, w, hp, hok, -, rfl, -⟩ | ⟨-, rfl, -⟩ | ⟨msg, -, -, -, rfl, -⟩ | ⟨-, rfl, -⟩ |
    ⟨-, rfl, -⟩ := exec_engine_cases h hc hc'
  · exact Engine.bufCanonical_of_eq he (Engine.record_buf e f)
  · exact Engine.bufCanonical_of_eq (perform_bufCanonical hp hok he) rfl
  · exact he
  · exact Engine.bufCanonical_load e msg
  · exact he
  · exact he

theorem step_bufCanonical {s t : State} {k : Nat} {e e' : Engine} (h : step s = .next t) (hk : s.engines[k]? = some e)
    (hk' : t.engines[k]? = some e') (he : e.BufCanonical) : e'.BufCanonical := by
  obtain rfl | ⟨f, rfl, -⟩ | ⟨_, _, -, -, -, hx, hc, hc'⟩ | ⟨_, _, _, _, -, -, hx, hc, hc'⟩ | ⟨_, -, rfl⟩ :=
    step_engine_cases h hk hk'
  · exact he
  · exact Engine.bufCanonical_of_eq he (Engine.record_buf e f)
  · exact exec_bufCanonical hx hc hc' he
  · exact exec_bufCanonical hx hc hc' he
  · exact Engine.bufCanonical_reset

/-- Settles O34: a step keeps the number of engines, so every engine after it was an engine before, whose buffer it leaves,
appends to, replaces by a message laid out from 0 or makes unwritten. -/
theorem everyStepKeepsTheBufferCanonical : Obligations.EveryStepKeepsTheBufferCanonical := by
  intro s t hs h e' he'
  obtain ⟨k, hk'⟩ := List.mem_iff_getElem?.mp he'
  obtain ⟨-, -, -, -, hlen, -⟩ := step_next_machine h
  have hlt : k < s.engines.length := hlen ▸ (List.getElem?_eq_some_iff.mp hk').1
  have hcan : s.engines[k].BufCanonical := hs s.engines[k] (List.getElem_mem hlt)
  exact step_bufCanonical h (List.getElem?_eq_getElem hlt) hk' hcan

/-! ## An engine evolves from itself alone -/

/-- The machine after a move that leaves `e'` as the selected engine and gives the host the reply `r`, or none. -/
def State.finish (s : State) (e' : Engine) (r : Option Reply) : State :=
  { s.setCur e' with reply := r.getD s.reply }

theorem State.finish_self {s : State} {e : Engine} (hc : s.cur = some e) (r : Option Reply) :
    s.finish e r = { s with reply := r.getD s.reply } := by
  rw [State.finish, State.setCur_self hc]

@[simp] theorem State.finish_reply (s : State) (e' : Engine) (r : Option Reply) :
    (s.finish e' r).reply = r.getD s.reply := rfl

theorem State.finish_engines_sel {s : State} {e : Engine} (hc : s.cur = some e) (e' : Engine) (r : Option Reply) :
    (s.finish e' r).engines[s.sel]? = some e' :=
  State.cur_setCur hc e'

/-- What `act` makes of the selected engine and what it replies is fixed by the parameters `p` and the engine `e`: both are
chosen before the state is (R7, R188). -/
def ActsAlone (act : State → Host.Outcome State Fault Refusal) (p : Params) (e : Engine) : Prop :=
  ∃ (e' : Engine) (r : Option Reply), ∀ s : State, s.params = p → s.cur = some e → act s = .next (s.finish e' r)

/-- To act alone it is enough to agree, on the states concerned, with an operation that does. -/
theorem ActsAlone.congr {act act' : State → Host.Outcome State Fault Refusal} {p : Params} {e : Engine}
    (h : ActsAlone act' p e) (heq : ∀ s : State, s.params = p → s.cur = some e → act s = act' s) : ActsAlone act p e := by
  obtain ⟨e', r, h⟩ := h
  exact ⟨e', r, fun s hp hc => (heq s hp hc).trans (h s hp hc)⟩

theorem actsAlone_setCur (p : Params) (e e' : Engine) : ActsAlone (fun s => .next (s.setCur e')) p e :=
  ⟨e', none, fun _ _ _ => rfl⟩

theorem actsAlone_reply (p : Params) (e : Engine) (r : Reply) : ActsAlone (fun s => .next { s with reply := r }) p e :=
  ⟨e, some r, fun _ _ hc => by rw [State.finish_self hc, Option.getD_some]⟩

theorem actsAlone_next (p : Params) (e : Engine) : ActsAlone .next p e :=
  ⟨e, none, fun _ _ hc => by rw [State.finish_self hc, Option.getD_none]⟩

theorem actsAlone_takeFault (p : Params) (e : Engine) (f : CoreFault) : ActsAlone (·.takeFault f) p e :=
  (actsAlone_setCur p e (e.record f)).congr fun _ _ hc => takeFault_of_cur hc f

theorem actsAlone_takeReset (p : Params) (e : Engine) : ActsAlone State.takeReset p e :=
  (actsAlone_setCur p e Engine.reset).congr fun _ _ hc => by simp only [State.takeReset, hc]

theorem actsAlone_noStep (p : Params) (e : Engine) : ActsAlone noStep p e :=
  (actsAlone_next p e).congr fun _ _ hc => by simp only [noStep, hc]

theorem actsAlone_microOp (op : Instr) (perform : Params → Engine → Except CoreFault Engine) (p : Params) (e : Engine) :
    ActsAlone (microOp op perform) p e := by
  rcases hok : perform p e with f | e1
  · exact (actsAlone_takeFault p e f).congr fun _ hp hc => by simp only [microOp, hp, hc, hok]
  · rcases hn : nextSeq op e1 with f | w
    · exact (actsAlone_takeFault p e f).congr fun _ hp hc => by simp only [microOp, hp, hc, hok, hn]
    · exact (actsAlone_setCur p e { e1 with seq := w }).congr fun _ hp hc => microOp_of_ok hc (hp ▸ hok) hn

theorem actsAlone_execStart (msg : List Byte) (p : Params) (e : Engine) : ActsAlone (execStart msg) p e := by
  by_cases ha : p.admits msg.length = true
  · by_cases hb : busy e.seq = true
    · exact (actsAlone_takeFault p e (.startWhileBusy e.seq 0x01)).congr fun _ hp hc => by
        simp only [execStart, hp, hc, ha, hb, if_true]
    · exact (actsAlone_setCur p e (e.load msg)).congr fun _ hp hc => by
        simp only [execStart, hp, hc, ha, hb, if_true, if_neg Bool.false_ne_true]
  · exact (actsAlone_next p e).congr fun _ hp hc => by
      simp only [execStart, hp, hc, ha, if_neg Bool.false_ne_true]

theorem actsAlone_execRdstat (p : Params) (e : Engine) : ActsAlone execRdstat p e :=
  (actsAlone_reply p e (.status (statusOf e.seq))).congr fun _ _ hc => by simp only [execRdstat, hc]

theorem actsAlone_execRddig (p : Params) (e : Engine) : ActsAlone execRddig p e := by
  by_cases hd : isDone e.seq = true
  · rcases hn : e.firstUnwrittenChar with _ | n
    · exact (actsAlone_reply p e (.digest e.doutChars)).congr fun _ _ hc => by simp only [execRddig, hc, hd, hn, if_true]
    · exact (actsAlone_takeFault p e (.unwrittenRead e.seq (.dout n))).congr fun _ _ hc => by
        simp only [execRddig, hc, hd, hn, if_true]
  · exact (actsAlone_takeFault p e (.earlyDigestRead e.seq 0x03)).congr fun _ _ hc => by
      simp only [execRddig, hc, hd, if_neg Bool.false_ne_true]

/-- Every instruction acts alone (R188). -/
theorem actsAlone_exec (i : Instr) (p : Params) (e : Engine) : ActsAlone (exec i) p e := by
  rcases hp : performOf i with _ | perform
  · cases i <;> simp only [performOf, reduceCtorEq] at hp
    case idle => exact actsAlone_noStep p e
    case done => exact actsAlone_noStep p e
    case start msg => exact actsAlone_execStart msg p e
    case rdstat => exact actsAlone_execRdstat p e
    case rddig => exact actsAlone_execRddig p e
  · exact (actsAlone_microOp i perform p e).congr fun s _ _ => exec_eq_microOp hp s

/-- What the move `ev` makes of its engine and what it replies is fixed by the parameters `p` and the engine `e` it finds:
both are chosen before the state and the moves to come are (R7, R40, R188). -/
def StepsAlone (ev : Event) (p : Params) (e : Engine) : Prop :=
  ∃ (e' : Engine) (r : Option Reply), ∀ (s : State) (rest : List Event), s.agenda = ev :: rest → s.params = p →
    s.engines[ev.target]? = some e → ∃ t, step s = .next t ∧ t.engines[ev.target]? = some e' ∧ t.reply = r.getD s.reply

/-- A move steps alone when its step is an operation that acts alone, carried out on the state with the engine selected and
the reply kept, or set to `q`. -/
theorem ActsAlone.stepsAlone {act : State → Host.Outcome State Fault Refusal} {ev : Event} {p : Params} {e : Engine}
    (h : ActsAlone act p e) (q : Option Reply)
    (hs : ∀ (s : State) (rest : List Event), s.agenda = ev :: rest → s.engines[ev.target]? = some e →
      ∃ s1 : State, step s = act s1 ∧ s1.params = s.params ∧ s1.cur = some e ∧ s1.sel = ev.target ∧
        s1.reply = q.getD s.reply) : StepsAlone ev p e := by
  obtain ⟨e', r, h⟩ := h
  refine ⟨e', r.or q, fun s rest ha hp hk => ?_⟩
  obtain ⟨s1, hstep, hp1, hc1, hsel, hr⟩ := hs s rest ha hk
  refine ⟨s1.finish e' r, hstep.trans (h s1 (hp1.trans hp) hc1), ?_, ?_⟩
  · exact hsel ▸ State.finish_engines_sel hc1 e' r
  · rw [State.finish_reply, hr, Option.getD_or]

theorem stepsAlone_core (k : Nat) (p : Params) (e : Engine) : StepsAlone (.core k) p e := by
  by_cases hf : e.faults = []
  · rcases hd : decodeSeq e.seq with x | i
    · exact (actsAlone_setCur p e (e.record (.illegalSeq e.seq))).stepsAlone none fun s rest ha hk =>
        ⟨s.take k rest, step_core_illegal (.inl ha) hk hf hd, rfl, hk, rfl, rfl⟩
    · exact (actsAlone_exec i p e).stepsAlone none fun s rest ha hk =>
        ⟨s.take k rest, step_core_run (.inl ha) hk hf hd, rfl, hk, rfl, rfl⟩
  · exact (actsAlone_next p e).stepsAlone none fun s rest ha hk =>
      ⟨s.take k rest, step_core_faulted (.inl ha) hk hf, rfl, hk, rfl, rfl⟩

theorem stepsAlone_host (k : Nat) (code : Byte) (payload : List Byte) (p : Params) (e : Engine) :
    StepsAlone (.host k code payload) p e := by
  rcases hd : decodeHost code payload with x | i
  · exact (actsAlone_setCur p e (e.record (.illegalHostCmd e.seq code))).stepsAlone (some .nothing) fun s rest ha hk =>
      ⟨s.takeHost k rest, step_host_illegal ha hk hd, rfl, hk, rfl, rfl⟩
  · exact (actsAlone_exec i p e).stepsAlone (some .nothing) fun s rest ha hk =>
      ⟨s.takeHost k rest, step_host_run ha hk hd, rfl, hk, rfl, rfl⟩

theorem stepsAlone_wait (k : Nat) (p : Params) (e : Engine) : StepsAlone (.wait k) p e :=
  (actsAlone_reply p e (.status (statusOf e.seq))).stepsAlone (some .nothing) fun _ _ ha hk =>
    ⟨_, step_wait ha hk, rfl, hk, rfl, rfl⟩

theorem stepsAlone_reset (k : Nat) (p : Params) (e : Engine) : StepsAlone (.reset k) p e :=
  (actsAlone_setCur p e Engine.reset).stepsAlone none fun s rest ha hk =>
    ⟨s.take k rest, step_reset ha hk, rfl, hk, rfl, rfl⟩

/-- Every move steps alone. -/
theorem stepsAlone : ∀ (ev : Event) (p : Params) (e : Engine), StepsAlone ev p e
  | .core k => stepsAlone_core k
  | .host k code payload => stepsAlone_host k code payload
  | .wait k => stepsAlone_wait k
  | .reset k => stepsAlone_reset k

/-- Settles O32: the engine after the move and the reply are fixed before either state is, so the two runs share them. -/
theorem anEngineEvolvesFromItselfAlone : Obligations.AnEngineEvolvesFromItselfAlone := by
  intro s s' t ev rest rest' ha ha' hp hk h
  obtain ⟨e, hke, -⟩ := step_next_machine h
  have hmover : s.mover = ev.target := by simp only [State.mover, ha]
  rw [hmover] at hke
  obtain ⟨e', r, halone⟩ := stepsAlone ev s.params e
  obtain ⟨t1, ht1, he1, hr1⟩ := halone s rest ha rfl hke
  obtain ⟨t', ht', he', hr'⟩ := halone s' rest' ha' hp.symm (hk ▸ hke)
  obtain rfl : t1 = t := Host.Outcome.next.inj (ht1.symm.trans h)
  exact ⟨t', ht', he'.trans he1.symm, fun hreply => by rw [hr', hr1, hreply]⟩

end Sys2Proof.Machine
end

section
/-!
PROOF. The invariant (spec/10_state.md R38, spec/45_sequencer.md R185): it holds right after power-on, every step of any
agent keeps it, and it bounds the buffer and the block counter.
-/

namespace Sys2Proof.Machine

/-! ## The invariant of one engine -/

/-- What an engine holds of a computation does not lie in its fault record. -/
theorem Engine.at_record {e : Engine} {f : CoreFault} {msg : List Byte} {op : Instr} :
    (e.record f).At msg op ↔ e.At msg op := by
  cases op <;> exact Iff.rfl

/-- Recording a fault keeps the invariant (R39, R223). -/
theorem Engine.inv_record {p : Params} {e : Engine} (h : e.Inv p) (f : CoreFault) : (e.record f).Inv p := by
  obtain ⟨hnodup, op, hd, hreg⟩ := h
  exact ⟨Engine.nodup_faults_record hnodup, op, hd,
    hreg.imp_right fun ⟨msg, ha, hat⟩ => ⟨msg, ha, Engine.at_record.mpr hat⟩⟩

/-- An engine right after reset has the invariant (R38, R250). -/
theorem Engine.inv_reset (p : Params) : Engine.reset.Inv p :=
  ⟨List.nodup_nil, .idle, decodeSeq_idle, .inl ⟨rfl, Engine.allUnwritten_reset⟩⟩

/-- An engine in a phase of computing the digest of an admitted message has the invariant. -/
theorem Engine.inv_of_inPhase {p : Params} {e : Engine} {msg : List Byte} {ph : Phase} (hnodup : e.faults.Nodup)
    (ha : p.admits msg.length = true) (h : e.InPhase msg ph) : e.Inv p := by
  have hd : decodeSeq e.seq = .ok ph.op := h.2.1
  exact ⟨hnodup, ph.op, hd, .inr ⟨msg, ha, (Engine.at_iff hd).mpr ⟨ph, rfl, h⟩⟩⟩

/-- With the invariant an engine is in IDLE or in a phase of computing the digest of an admitted message. -/
theorem Engine.Inv.idle_or_inPhase {p : Params} {e : Engine} (h : e.Inv p) :
    decodeSeq e.seq = .ok .idle ∨ ∃ msg ph, p.admits msg.length = true ∧ e.InPhase msg ph := by
  obtain ⟨-, op, hd, ⟨rfl, -⟩ | ⟨msg, ha, hat⟩⟩ := h
  · exact .inl hd
  · obtain ⟨ph, -, hph⟩ := (Engine.at_iff hd).mp hat
    exact .inr ⟨msg, ph, ha, hph⟩

/-- START of an admitted message puts an engine at the first phase of its computation, whatever it held before (R200). -/
theorem Engine.inv_load {p : Params} {e : Engine} {msg : List Byte} (h : e.Inv p) (ha : p.admits msg.length = true) :
    (e.load msg).Inv p :=
  Engine.inv_of_inPhase (ph := .init) h.1 ha ⟨trivial, decodeSeq_init, rfl⟩

/-! ## The invariant over a step -/

/-- The waiting states and the host commands keep the invariant in every phase. -/
theorem exec_inv_of_performOf_none {i : Instr} {s t : State} {e e' : Engine} (hp : performOf i = none)
    (h : exec i s = .next t) (hc : s.cur = some e) (hc' : t.cur = some e') (he : e.Inv s.params) : e'.Inv s.params := by
  obtain ⟨f, rfl, -⟩ | ⟨_, _, _, hsome, -⟩ | ⟨-, rfl, -⟩ | ⟨msg, -, ha, -, rfl, -⟩ | ⟨-, rfl, -⟩ | ⟨-, rfl, -⟩ :=
    exec_engine_cases h hc hc'
  · exact Engine.inv_record he f
  · cases hp.symm.trans hsome
  · exact he
  · exact Engine.inv_load he ha
  · exact he
  · exact he

theorem performOf_of_decodeHost {code : Byte} {payload : List Byte} {i : Instr} (h : decodeHost code payload = .ok i) :
    performOf i = none := by
  obtain ⟨-, rfl⟩ | ⟨-, rfl⟩ | ⟨-, rfl⟩ := decodeHost_cases h <;> rfl

/-- A core step waits in IDLE and otherwise moves on to the next phase, where R9's constraint keeps the block counter from
wrapping. -/
theorem step_core_inv {s t : State} {k : Nat} {rest : List Event} {e e' : Engine} (hfits : s.params.fits = true)
    (hm : s.CoreMove k rest) (hf : e.faults = []) (h : step s = .next t) (hc : (s.take k rest).cur = some e)
    (hc' : t.cur = some e') (he : e.Inv s.params) : e'.Inv s.params := by
  obtain hidle | ⟨msg, ph, ha, hph⟩ := he.idle_or_inPhase
  · rw [step_core_run hm hc hf hidle] at h
    exact exec_inv_of_performOf_none (s := s.take k rest) rfl h hc hc' he
  · have hblk : ∀ j, ph = .accum j → blkSucc s.params j = j + 1 := by
      rintro j rfl
      exact fits_blkSucc hfits ha hph.1
    obtain ⟨e1, hnext, hf1, hph1⟩ := step_phase hm hc hf hblk hph
    obtain rfl : (s.take k rest).setCur e1 = t := Host.Outcome.next.inj (hnext.symm.trans h)
    obtain rfl : e1 = e' := Option.some.inj ((State.cur_setCur hc e1).symm.trans hc')
    exact Engine.inv_of_inPhase (hf1 ▸ List.nodup_nil) ha hph1

/-- A step keeps the invariant of each engine. -/
theorem step_engine_inv {s t : State} {k : Nat} {e e' : Engine} (hfits : s.params.fits = true) (h : step s = .next t)
    (hk : s.engines[k]? = some e) (hk' : t.engines[k]? = some e') (he : e.Inv s.params) : e'.Inv s.params := by
  obtain rfl | ⟨f, rfl, -⟩ | ⟨rest, _, hm, hf, -, -, hc, hc'⟩ | ⟨_, _, rest, _, -, hd, hx, hc, hc'⟩ | ⟨_, -, rfl⟩ :=
    step_engine_cases h hk hk'
  · exact he
  · exact Engine.inv_record he f
  · exact step_core_inv hfits hm hf h hc hc' he
  · exact exec_inv_of_performOf_none (s := s.takeHost k rest) (performOf_of_decodeHost hd) hx hc hc' he
  · exact Engine.inv_reset s.params

/-- Every engine after a step was an engine before it (R40). -/
theorem step_engine_before {s t : State} {k : Nat} {e' : Engine} (h : step s = .next t)
    (hk' : t.engines[k]? = some e') : ∃ e, s.engines[k]? = some e := by
  obtain ⟨-, -, -, -, hlen, -⟩ := step_next_machine h
  exact ⟨_, List.getElem?_eq_getElem (hlen ▸ (List.getElem?_eq_some_iff.mp hk').1)⟩

/-- Settles O36: the step selects an engine that exists and keeps the parameters, and each engine after it comes from the
same engine before it, whose invariant it keeps. -/
theorem everyStepKeepsTheInvariant : Obligations.EveryStepKeepsTheInvariant := by
  rintro s t ⟨hfits, -, hinv⟩ h
  obtain ⟨_, hmover, hsel, hparams, hlen, -⟩ := step_next_machine h
  refine ⟨hparams ▸ hfits, ?_, fun e' he' => ?_⟩
  · rw [hsel, hlen]
    exact (List.getElem?_eq_some_iff.mp hmover).1
  · obtain ⟨k, hk'⟩ := List.mem_iff_getElem?.mp he'
    obtain ⟨e, hk⟩ := step_engine_before h hk'
    rw [hparams]
    exact step_engine_inv hfits h hk hk' (hinv e (List.mem_of_getElem? hk))

/-- A machine just powered on has the invariant (R253). -/
theorem State.inv_powerOn {p : Params} {n : Nat} (hfits : p.fits = true) (hn : 0 < n) : (State.powerOn p n).Inv := by
  refine ⟨hfits, by simpa [State.powerOn] using hn, fun e he => ?_⟩
  obtain rfl : e = Engine.reset := List.eq_of_mem_replicate he
  exact Engine.inv_reset p

/-- Settles O35: every engine of a machine just powered on is `Engine.reset`, and `State.reset` is such a machine. -/
theorem powerOnHasTheInvariant : Obligations.PowerOnHasTheInvariant :=
  ⟨fun _ _ => State.inv_powerOn, State.inv_powerOn rfl Nat.one_pos⟩

/-! ## Bounds of the buffer and the block counter -/

/-- The padded message is at most 72 bytes longer than the message (R22, R105). -/
theorem blockCount_le (len : Nat) : 64 * blockCount len ≤ len + 72 := by
  simp only [blockCount]
  omega

/-- The buffer is within the padded length of a message of `len` bytes, and the blocks counted are within the buffer. -/
def Engine.InBounds (e : Engine) (len : Nat) : Prop :=
  ∃ buf blk, e.buf = .holds buf ∧ e.blk = .holds blk ∧ buf.len ≤ len + 72 ∧ 64 * blk ≤ buf.len

theorem Engine.Padding.inBounds {e : Engine} {msg : List Byte} {zeros : Nat} (h : e.Padding msg zeros)
    (hz : zeros ≤ zeroCount msg.length) : e.InBounds msg.length := by
  obtain ⟨hb, -, -, hk⟩ := h
  refine ⟨_, 0, hb, hk, ?_, Nat.zero_le _⟩
  have hzero : zeroCount msg.length < 64 := by simp only [zeroCount]; omega
  simp only [Memory.len_ofBytes, List.length_append, List.length_singleton, List.length_replicate]
  omega

theorem Engine.Hashing.inBounds {e : Engine} {msg : List Byte} {k : Nat} (h : e.Hashing msg k)
    (hle : k ≤ blockCount msg.length) : e.InBounds msg.length := by
  obtain ⟨hb, -, -, hk⟩ := h
  have hlen : (Memory.ofBytes (padMessage msg)).len = 64 * blockCount msg.length := by
    rw [Memory.len_ofBytes, length_padMessage]
  exact ⟨_, k, hb, hk, hlen ▸ blockCount_le _, by omega⟩

theorem Engine.InRounds.inBounds {e : Engine} {msg : List Byte} {k n : Nat} (h : e.InRounds msg k n) :
    e.InBounds msg.length := by
  obtain ⟨hlt, hhash, -⟩ := h
  exact hhash.inBounds hlt.le

/-- From PADM on, the buffer and the block counter are within their bounds (R22, R27). -/
theorem Engine.At.inBounds {e : Engine} {msg : List Byte} {op : Instr} (h : e.At msg op) (hop : op ≠ .init) :
    e.InBounds msg.length := by
  cases op with
  | init => exact absurd rfl hop
  | padm =>
    obtain ⟨hb, -, -, hk⟩ := h
    exact ⟨_, 0, hb, hk, by rw [Memory.len_ofBytes]; omega, Nat.zero_le _⟩
  | padz => obtain ⟨zeros, hz, hpad⟩ := h; exact hpad.inBounds hz.le
  | aplen => exact Engine.Padding.inBounds h le_rfl
  | loadb => obtain ⟨k, hk, hhash⟩ := h; exact hhash.inBounds hk.le
  | roundf i | roundg i | roundh i | roundi i => obtain ⟨k, hr⟩ := h; exact hr.inBounds
  | accum => obtain ⟨k, hr⟩ := h; exact hr.inBounds
  | serial => exact Engine.Hashing.inBounds h le_rfl
  | done => exact Engine.Hashing.inBounds h.1 le_rfl
  | idle | start | rdstat | rddig => exact h.elim

/-- Throughout the computation the buffer is at most 72 bytes longer than the message (R22). -/
theorem Engine.At.len_buf_le {e : Engine} {msg : List Byte} {op : Instr} {buf : Memory} (h : e.At msg op)
    (hb : e.buf = .holds buf) : buf.len ≤ msg.length + 72 := by
  by_cases hop : op = .init
  · subst hop
    obtain rfl : Memory.ofBytes msg = buf := Reg.holds.inj (h.symm.trans hb)
    rw [Memory.len_ofBytes]
    omega
  · obtain ⟨buf', _, hb', -, hle, -⟩ := h.inBounds hop
    obtain rfl : buf' = buf := Reg.holds.inj (hb'.symm.trans hb)
    exact hle

/-- An admitted message is within a finite MAX_MSG_BYTES (R205). -/
theorem Params.le_of_admits {p : Params} {len n : Nat} (h : p.admits len = true) (hn : p.maxMsgBytes = some n) :
    len ≤ n := by
  simpa [Params.admits, hn] using h

/-- Settles O39: an engine whose buffer holds something is not in IDLE, so it is computing the digest of an admitted
message, and at LOADB it holds the whole padded message with a block left. -/
theorem bufferAndCounterStayInBounds : Obligations.BufferAndCounterStayInBounds := by
  rintro s e buf op ⟨-, -, hinv⟩ he hb hd
  obtain ⟨-, op', hd', hreg⟩ := hinv e he
  obtain rfl : op = op' := Except.ok.inj (hd.symm.trans hd')
  obtain ⟨-, hun, -⟩ | ⟨msg, ha, hat⟩ := hreg
  · cases hun.symm.trans hb
  refine ⟨fun n hn => ?_, fun hop => ?_, ?_⟩
  · have := Params.le_of_admits ha hn
    have := hat.len_buf_le hb
    omega
  · obtain ⟨buf', blk, hb', hk, -, hle⟩ := hat.inBounds hop
    obtain rfl : buf' = buf := Reg.holds.inj (hb'.symm.trans hb)
    exact ⟨blk, hk, by omega⟩
  · rintro rfl
    obtain ⟨k, hlt, hb', -, -, hk⟩ := hat
    obtain rfl : Memory.ofBytes (padMessage msg) = buf := Reg.holds.inj (hb'.symm.trans hb)
    rw [Memory.len_ofBytes, length_padMessage]
    exact ⟨k, hk, by omega, by omega⟩

end Sys2Proof.Machine
end

section
/-!
PROOF. The fault record, reset and the engine a step touches (spec/10_state.md R38 to R40, spec/60_exceptions.md R223).
-/

namespace Sys2Proof.Machine

/-! ## One step -/

theorem State.mover_nil {s : State} (h : s.agenda = []) : s.mover = s.turn := by
  simp only [State.mover, h]

theorem State.mover_cons {s : State} {ev : Event} {rest : List Event} (h : s.agenda = ev :: rest) :
    s.mover = ev.target := by
  simp only [State.mover, h]

/-- Settles O31: a step acts on the engine of its move alone, which it selects. -/
theorem onlyTheAddressedEngineChanges : Obligations.OnlyTheAddressedEngineChanges := by
  intro s t h
  obtain ⟨-, -, hsel, hparams, hlen, hothers⟩ := step_next_machine h
  exact ⟨hsel, State.mover_nil, fun _ _ => State.mover_cons, hsel ▸ hothers, hlen, hparams⟩

/-! ## Reset -/

/-- The reset of engine `k` leaves `Engine.reset` there (R250). -/
theorem step_reset_engine {s t : State} {k : Nat} {rest : List Event} {e : Engine} (ha : s.agenda = .reset k :: rest)
    (hk : s.engines[k]? = some e) (h : step s = .next t) : t.engines[k]? = some Engine.reset := by
  rw [step_reset ha hk] at h
  obtain rfl := Host.Outcome.next.inj h
  exact State.cur_setCur (s := s.take k rest) hk Engine.reset

/-- Settles O10: a reset leaves `Engine.reset` in its engine, which holds R38's values, and acts on no other engine. -/
theorem resetGivesTheResetValues : Obligations.ResetGivesTheResetValues := by
  intro s k rest e ha hk
  have hstep := step_reset ha hk
  obtain ⟨-, -, -, hparams, -, hothers⟩ := step_next_machine hstep
  obtain ⟨hbuf, hol, hha, hhb, hhc, hhd, hra, hrb, hrc, hrd, hm, hblk, hdout⟩ := Engine.allUnwritten_reset
  rw [State.mover_cons ha] at hothers
  exact ⟨_, Engine.reset, hstep, step_reset_engine ha hk hstep, rfl, hbuf, hol, hha, hhb, hhc, hhd, hra, hrb, hrc, hrd,
    hm, hblk, hdout, rfl, rfl, hothers, hparams⟩

/-! ## The fault record -/

/-- No instruction takes a fault out of the record (R223). -/
theorem exec_keeps_faults {i : Instr} {s t : State} {e e' : Engine} {f : CoreFault} (h : exec i s = .next t)
    (hc : s.cur = some e) (hc' : t.cur = some e') (hf : f ∈ e.faults) : f ∈ e'.faults := by
  obtain ⟨g, rfl, -⟩ | ⟨_, e1, w, hp, hok, -, rfl, -⟩ | ⟨-, rfl, -⟩ | ⟨msg, -, -, -, rfl, -⟩ | ⟨-, rfl, -⟩ |
    ⟨-, rfl, -⟩ := exec_engine_cases h hc hc'
  · exact Engine.mem_faults_record.mpr (.inl hf)
  · exact (perform_seq_faults hp hok).2 ▸ hf
  · exact hf
  · exact hf
  · exact hf
  · exact hf

/-- No step but the engine's own reset takes a fault out of its record (R39, R223). -/
theorem step_keeps_faults {s t : State} {k : Nat} {e e' : Engine} {f : CoreFault} (h : step s = .next t)
    (hk : s.engines[k]? = some e) (hk' : t.engines[k]? = some e') (hreset : ∀ rest, s.agenda ≠ .reset k :: rest)
    (hf : f ∈ e.faults) : f ∈ e'.faults := by
  obtain rfl | ⟨g, rfl, -⟩ | ⟨_, _, -, -, -, hx, hc, hc'⟩ | ⟨_, _, _, _, -, -, hx, hc, hc'⟩ | ⟨rest, ha, -⟩ :=
    step_engine_cases h hk hk'
  · exact hf
  · exact Engine.mem_faults_record.mpr (.inl hf)
  · exact exec_keeps_faults hx hc hc' hf
  · exact exec_keeps_faults hx hc hc' hf
  · exact absurd ha (hreset rest)

/-- Settles O9: a reset leaves `Engine.reset`, whose record is empty, and every other step keeps the record's faults. -/
theorem onlyResetClearsTheFaultRecord : Obligations.OnlyResetClearsTheFaultRecord := by
  intro s t k e e' h hk hk'
  refine ⟨fun rest ha => ?_, fun hreset f hf => step_keeps_faults h hk hk' hreset hf⟩
  obtain rfl : Engine.reset = e' := Option.some.inj ((step_reset_engine ha hk h).symm.trans hk')
  rfl

end Sys2Proof.Machine
end

section
/-!
PROOF. `STATUS` as a view of `SEQ` (spec/10_state.md R35), and reads of a register that holds no value (R34).
-/

namespace Sys2Proof.Machine

/-! ## STATUS -/

theorem isDone_iff {w : SeqWord} : isDone w = true ↔ opField w = 0x9#4 := by
  simp [isDone]

theorem busy_iff {w : SeqWord} : busy w = true ↔ opField w ≠ 0x0#4 ∧ opField w ≠ 0x9#4 := by
  simp [busy]

/-- `STATUS` bit by bit (R35). -/
theorem getLsbD_statusOf (w : SeqWord) (n : Nat) :
    (statusOf w).getLsbD n = if n = 0 then busy w else if n = 1 then isDone w else false := by
  have happ : (statusOf w).getLsbD n =
      (((0#6) ++ BitVec.ofBool (isDone w)) ++ BitVec.ofBool (busy w) : BitVec (6 + 1 + 1)).getLsbD n := rfl
  rw [happ, BitVec.getLsbD_append, BitVec.getLsbD_append]
  rcases n with _ | _ | n
  · simp
  · simp
  · simp

/-- Settles O50: bit 0 is BUSY, bit 1 DONE, and one value of `SEQ[15:12]` does not meet the tests of both. -/
theorem statusBitsAreAViewOfSeq : Obligations.StatusBitsAreAViewOfSeq := by
  refine ⟨fun w => ?_, rfl⟩
  have hbusy : (statusOf w).getLsbD 0 = true ↔ opField w ≠ 0x0#4 ∧ opField w ≠ 0x9#4 := by
    rw [getLsbD_statusOf, if_pos rfl, busy_iff]
  have hdone : (statusOf w).getLsbD 1 = true ↔ opField w = 0x9#4 := by
    rw [getLsbD_statusOf, if_neg Nat.one_ne_zero, if_pos rfl, isDone_iff]
  refine ⟨hbusy, hdone, fun n hn => ?_, fun ⟨h0, h1⟩ => (hbusy.mp h0).2 (hdone.mp h1)⟩
  rw [getLsbD_statusOf, if_neg (by omega), if_neg (by omega)]

/-! ## RDDIG of an unwritten digest -/

/-- The first unwritten character is the one with only written ones before it (log 10). -/
theorem Engine.firstUnwrittenChar_eq_some {e : Engine} {n : Fin 32} (hn : e.dout[n] = .unwritten)
    (hlt : ∀ n' : Fin 32, n' < n → e.dout[n'] ≠ .unwritten) : e.firstUnwrittenChar = some n := by
  refine List.find?_eq_some_iff_getElem.mpr ⟨by simpa using hn, n, by simp, by simp, fun j hj => ?_⟩
  simpa using hlt ⟨j, hj.trans n.isLt⟩ hj

/-- Settles O26: in DONE, RDDIG looks for the first unwritten character and records it. -/
theorem rddigOfAnUnwrittenDigestFaults : Obligations.RddigOfAnUnwrittenDigestFaults := by
  intro s e n hc hop hn hlt
  have hdone : isDone e.seq = true := isDone_iff.mpr hop
  have hfirst := Engine.firstUnwrittenChar_eq_some hn hlt
  simp only [exec, execRddig, hc, hdone, hfirst, if_true, takeFault_of_cur hc]

/-! ## The first unwritten operand -/

/-- In the reading order `ops`, `name` is the first register that holds no value (R224). -/
def FirstUnwritten (ops : List (RegName × Bool)) (name : RegName) : Prop :=
  ops.find? (fun r => !r.2) = some (name, false)

theorem not_firstUnwritten_nil {name : RegName} : ¬ FirstUnwritten [] name := nofun

/-- The first register read is unwritten and the one named, or holds a value and is passed over. -/
theorem firstUnwritten_cons {α : Type} {r : Reg α} {first name : RegName} {ops : List (RegName × Bool)} :
    FirstUnwritten ((first, r.written) :: ops) name ↔
      (r = .unwritten ∧ first = name) ∨ ((∃ v, r = .holds v) ∧ FirstUnwritten ops name) := by
  cases r <;> simp [FirstUnwritten, Reg.written]

/-- A computation that starts with a read: it faults there, or goes on with the value read (R34). -/
theorem read_bind_of_firstUnwritten {α β : Type} {e : Engine} {r : Reg α} {first name : RegName}
    {ops : List (RegName × Bool)} {f : α → Except CoreFault β} (h : FirstUnwritten ((first, r.written) :: ops) name)
    (hf : ∀ v, r = .holds v → FirstUnwritten ops name → f v = .error (.unwrittenRead e.seq name)) :
    (e.read first r >>= f) = .error (.unwrittenRead e.seq name) := by
  obtain ⟨rfl, rfl⟩ | ⟨⟨v, rfl⟩, htail⟩ := firstUnwritten_cons.mp h
  · rfl
  · exact hf v rfl htail

/-- INIT, PADM and PADZ read `BUF` first. -/
theorem read_buf_bind_of_firstUnwritten {β : Type} {e : Engine} {name : RegName} {f : Memory → Except CoreFault β}
    (h : FirstUnwritten [(.buf, e.buf.written)] name) :
    (e.read .buf e.buf >>= f) = .error (.unwrittenRead e.seq name) :=
  read_bind_of_firstUnwritten h fun _ _ h => (not_firstUnwritten_nil h).elim

theorem performAplen_of_firstUnwritten {p : Params} {e : Engine} {name : RegName}
    (h : FirstUnwritten (e.operands .aplen) name) : performAplen p e = .error (.unwrittenRead e.seq name) :=
  read_bind_of_firstUnwritten h fun _ _ h => read_buf_bind_of_firstUnwritten h

/-- The running state is read in the order HA, HB, HC, HD (R170). -/
theorem readH_of_firstUnwritten {e : Engine} {name : RegName} (h : FirstUnwritten (e.operands .serial) name) :
    e.readH = .error (.unwrittenRead e.seq name) :=
  read_bind_of_firstUnwritten h fun _ _ h => read_bind_of_firstUnwritten h fun _ _ h =>
    read_bind_of_firstUnwritten h fun _ _ h => read_bind_of_firstUnwritten h fun _ _ h =>
      (not_firstUnwritten_nil h).elim

theorem performSerial_of_firstUnwritten {p : Params} {e : Engine} {name : RegName}
    (h : FirstUnwritten (e.operands .serial) name) : performSerial p e = .error (.unwrittenRead e.seq name) := by
  simp only [performSerial, readH_of_firstUnwritten h, Except.error_bind]

theorem performLoadb_of_firstUnwritten {p : Params} {e : Engine} {name : RegName}
    (h : FirstUnwritten (e.operands .loadb) name) : performLoadb p e = .error (.unwrittenRead e.seq name) :=
  read_bind_of_firstUnwritten h fun _ _ h => read_bind_of_firstUnwritten h fun _ _ h => by
    rw [readH_of_firstUnwritten h, Except.error_bind]

theorem roundStep_of_firstUnwritten {aux : Word → Word → Word → Word} {ri : RoundIndex} {p : Params} {e : Engine}
    {name : RegName} (h : FirstUnwritten (e.roundOperands ri) name) :
    roundStep aux ri p e = .error (.unwrittenRead e.seq name) :=
  read_bind_of_firstUnwritten h fun _ _ h => read_bind_of_firstUnwritten h fun _ _ h =>
    read_bind_of_firstUnwritten h fun _ _ h => read_bind_of_firstUnwritten h fun _ _ h =>
      read_bind_of_firstUnwritten h fun _ _ h => (not_firstUnwritten_nil h).elim

/-- ACCUM's last read, of `BUF`, is that of the next-operation function (R182, log 10). -/
theorem performAccum_bind_of_firstUnwritten {p : Params} {e : Engine} {name : RegName}
    (h : FirstUnwritten (e.operands .accum) name) :
    (performAccum p e >>= nextSeq .accum) = .error (.unwrittenRead e.seq name) := by
  simp only [performAccum, bind_assoc, Except.ok_bind]
  exact read_bind_of_firstUnwritten h fun _ _ h => read_bind_of_firstUnwritten h fun _ _ h =>
    read_bind_of_firstUnwritten h fun _ _ h => read_bind_of_firstUnwritten h fun _ _ h =>
    read_bind_of_firstUnwritten h fun _ _ h => read_bind_of_firstUnwritten h fun _ _ h =>
    read_bind_of_firstUnwritten h fun _ _ h => read_bind_of_firstUnwritten h fun _ _ h =>
    read_bind_of_firstUnwritten h fun _ _ h => read_buf_bind_of_firstUnwritten h

/-- A micro-operation records the fault its writes, or the choice of the next operation after them, end in (R183, R223). -/
theorem microOp_of_bind_error {op : Instr} {perform : Params → Engine → Except CoreFault Engine} {s : State} {e : Engine}
    {f : CoreFault} (hc : s.cur = some e) (h : (perform s.params e >>= nextSeq op) = .error f) :
    microOp op perform s = .next (s.setCur (e.record f)) := by
  rcases hp : perform s.params e with g | e1
  · rw [hp, Except.error_bind] at h
    rw [microOp_of_error hc hp, Except.error.inj h]
  · rw [hp, Except.ok_bind] at h
    simp only [microOp, hc, hp, h, takeFault_of_cur hc]

/-- Every micro-operation reads its operands in the order listed, before it does anything else (R224). -/
theorem perform_bind_of_firstUnwritten {i : Instr} {perform : Params → Engine → Except CoreFault Engine} {p : Params}
    {e : Engine} {name : RegName} (hp : performOf i = some perform) (h : FirstUnwritten (e.operands i) name) :
    (perform p e >>= nextSeq i) = .error (.unwrittenRead e.seq name) := by
  have before : perform p e = .error (.unwrittenRead e.seq name) →
      (perform p e >>= nextSeq i) = .error (.unwrittenRead e.seq name) := fun hperf => by rw [hperf, Except.error_bind]
  cases i <;> simp only [performOf, reduceCtorEq, Option.some.injEq] at hp <;> subst hp
  case init | padm | padz => exact before (read_buf_bind_of_firstUnwritten h)
  case aplen => exact before (performAplen_of_firstUnwritten h)
  case loadb => exact before (performLoadb_of_firstUnwritten h)
  case accum => exact performAccum_bind_of_firstUnwritten h
  case serial => exact before (performSerial_of_firstUnwritten h)
  all_goals exact before (roundStep_of_firstUnwritten h)

/-- An instruction with operands is one of the micro-operations that have writes. -/
theorem performOf_of_firstUnwritten {i : Instr} {e : Engine} {name : RegName} (h : FirstUnwritten (e.operands i) name) :
    ∃ perform, performOf i = some perform := by
  cases i
  case idle | done | start | rdstat | rddig => exact (not_firstUnwritten_nil h).elim
  all_goals exact ⟨_, rfl⟩

/-- Settles O22: the micro-operation's reads, those of the next-operation function last, end at the first unwritten one. -/
theorem firstUnwrittenOperandIsRecorded : Obligations.FirstUnwrittenOperandIsRecorded := by
  intro i s e name hc h
  obtain ⟨perform, hp⟩ := performOf_of_firstUnwritten h
  rw [exec_eq_microOp hp]
  exact microOp_of_bind_error hc (perform_bind_of_firstUnwritten hp h)

end Sys2Proof.Machine
end

section
/-!
PROOF. The frames (spec/10_state.md R32, R33): what each family of instructions leaves unchanged.
-/

namespace Sys2Proof.Machine

/-- What holds of the engine after a fault, and after the micro-operation's writes and any next `SEQ`, holds of it after the
micro-operation; the rest of the machine stays (R183, R223). -/
theorem exec_microOp_frame {R : Engine → Prop} {i : Instr} {perform : Params → Engine → Except CoreFault Engine}
    {s t : State} {e e' : Engine} (h : exec i s = .next t) (hc : s.cur = some e) (hc' : t.cur = some e')
    (hp : performOf i = some perform) (hrecord : ∀ f, R (e.record f))
    (hok : ∀ e1 w, perform s.params e = .ok e1 → R { e1 with seq := w }) : R e' ∧ t = s.setCur e' := by
  rw [exec_eq_microOp hp] at h
  obtain ⟨e0, hc0, hcase⟩ := microOp_next h
  obtain rfl : e = e0 := Option.some.inj (hc.symm.trans hc0)
  obtain ⟨f, rfl⟩ | ⟨e1, w, h1, -, rfl⟩ := hcase
  · obtain rfl := Option.some.inj ((State.cur_setCur hc _).symm.trans hc')
    exact ⟨hrecord f, rfl⟩
  · obtain rfl := Option.some.inj ((State.cur_setCur hc _).symm.trans hc')
    exact ⟨hok e1 w h1, rfl⟩

/-! ## The padding operations -/

/-- A byte outside the `n` bytes written at index len(BUF) reads as before (R53). -/
theorem Memory.byteAt_write_outside (buf : Memory) (n v : Nat) {j : Nat} (h : j < buf.len ∨ buf.len + n ≤ j) :
    (buf.write n v).byteAt j = buf.byteAt j :=
  Memory.byteAt_append_outside buf _ (by simpa using h)

/-- What the padding operation `i`, which stores `n` bytes at index len(BUF), leaves of its engine (R33, R53). -/
def PaddingFrame (i : Instr) (n : Nat) (e e' : Engine) : Prop :=
  e'.a = e.a ∧ e'.b = e.b ∧ e'.c = e.c ∧ e'.d = e.d ∧ e'.m = e.m ∧ e'.dout = e.dout ∧
  (i ≠ .init → e'.ol = e.ol ∧ e'.ha = e.ha ∧ e'.hb = e.hb ∧ e'.hc = e.hc ∧ e'.hd = e.hd ∧ e'.blk = e.blk) ∧
  (e.buf = .unwritten → e'.buf = .unwritten) ∧
  (∀ buf, e.buf = .holds buf → ∃ buf', e'.buf = .holds buf' ∧
    ∀ j, (j < buf.len ∨ buf.len + n ≤ j) → buf'.byteAt j = buf.byteAt j) ∧
  (e'.faults = e.faults ∨ ∃ f, e' = e.record f)

theorem paddingFrame_record (i : Instr) (n : Nat) (e : Engine) (f : CoreFault) : PaddingFrame i n e (e.record f) :=
  ⟨rfl, rfl, rfl, rfl, rfl, rfl, fun _ => ⟨rfl, rfl, rfl, rfl, rfl, rfl⟩, id, fun buf hb => ⟨buf, hb, fun _ _ => rfl⟩,
    .inr ⟨f, rfl⟩⟩

/-- INIT stores nothing to `BUF`. -/
theorem paddingFrame_init {p : Params} {e e1 : Engine} (h : performInit p e = .ok e1) (w : SeqWord) :
    PaddingFrame .init 0 e { e1 with seq := w } := by
  obtain ⟨_, -, rfl⟩ := performInit_eq_ok.mp h
  exact ⟨rfl, rfl, rfl, rfl, rfl, rfl, fun hne => absurd rfl hne, id, fun buf hb => ⟨buf, hb, fun _ _ => rfl⟩, .inl rfl⟩

/-- PADM, PADZ and APLEN write `BUF` only. -/
theorem paddingFrame_appendBuf (i : Instr) {e : Engine} {buf : Memory} (hb : e.buf = .holds buf) (n v : Nat)
    (w : SeqWord) : PaddingFrame i n e { e.appendBuf buf n v with seq := w } := by
  refine ⟨rfl, rfl, rfl, rfl, rfl, rfl, fun _ => ⟨rfl, rfl, rfl, rfl, rfl, rfl⟩, fun hun => ?_, fun buf' hb' => ?_, .inl rfl⟩
  · cases hb.symm.trans hun
  · obtain rfl : buf = buf' := Reg.holds.inj (hb.symm.trans hb')
    exact ⟨buf.write n v, rfl, fun _ => Memory.byteAt_write_outside buf n v⟩

theorem paddingFrame_padm {p : Params} {e e1 : Engine} (h : performPadm p e = .ok e1) (w : SeqWord) :
    PaddingFrame .padm 1 e { e1 with seq := w } := by
  obtain ⟨buf, hb, rfl⟩ := performPadm_eq_ok.mp h
  exact paddingFrame_appendBuf .padm hb 1 0x80 w

theorem paddingFrame_padz {p : Params} {e e1 : Engine} (h : performPadz p e = .ok e1) (w : SeqWord) :
    PaddingFrame .padz 1 e { e1 with seq := w } := by
  obtain ⟨buf, hb, rfl⟩ := performPadz_eq_ok.mp h
  exact paddingFrame_appendBuf .padz hb 1 0x00 w

theorem paddingFrame_aplen {p : Params} {e e1 : Engine} (h : performAplen p e = .ok e1) (w : SeqWord) :
    PaddingFrame .aplen 8 e { e1 with seq := w } := by
  obtain ⟨ol, -, buf, hb, rfl⟩ := performAplen_eq_ok.mp h
  exact paddingFrame_appendBuf .aplen hb 8 (bitLength ol).toNat w

/-- Settles O27: a padding operation that faults changes the record only; INIT writes no `BUF`; the others append to it. -/
theorem paddingOperationsFrame : Obligations.PaddingOperationsFrame := by
  intro i n hin s t e e' h hc hc'
  have hframe : PaddingFrame i n e e' ∧ t = s.setCur e' := by
    simp only [List.mem_cons, Prod.mk.injEq, List.not_mem_nil, or_false] at hin
    obtain ⟨rfl, rfl⟩ | ⟨rfl, rfl⟩ | ⟨rfl, rfl⟩ | ⟨rfl, rfl⟩ := hin
    · exact exec_microOp_frame h hc hc' rfl (paddingFrame_record _ _ e) fun _ w hok => paddingFrame_init hok w
    · exact exec_microOp_frame h hc hc' rfl (paddingFrame_record _ _ e) fun _ w hok => paddingFrame_padm hok w
    · exact exec_microOp_frame h hc hc' rfl (paddingFrame_record _ _ e) fun _ w hok => paddingFrame_padz hok w
    · exact exec_microOp_frame h hc hc' rfl (paddingFrame_record _ _ e) fun _ w hok => paddingFrame_aplen hok w
  obtain ⟨⟨ha, hb, hcc, hd, hm, hdout, hregs, hun, hbuf, hfaults⟩, ht⟩ := hframe
  exact ⟨ha, hb, hcc, hd, hm, hdout, hregs, hun, hbuf, hfaults, ht⟩

/-! ## The block operations -/

/-- What the block operation `i` leaves of its engine (R33, R145). -/
def BlockFrame (i : Instr) (e e' : Engine) : Prop :=
  e'.ol = e.ol ∧ e'.buf = e.buf ∧
  (i ≠ .accum → e'.ha = e.ha ∧ e'.hb = e.hb ∧ e'.hc = e.hc ∧ e'.hd = e.hd ∧ e'.blk = e.blk) ∧
  (i = .accum ∨ i = .serial → e'.a = e.a ∧ e'.b = e.b ∧ e'.c = e.c ∧ e'.d = e.d) ∧
  (i ≠ .loadb → e'.m = e.m) ∧ (i ≠ .serial → e'.dout = e.dout) ∧
  (e'.faults = e.faults ∨ ∃ f, e' = e.record f)

theorem blockFrame_record (i : Instr) (e : Engine) (f : CoreFault) : BlockFrame i e (e.record f) :=
  ⟨rfl, rfl, fun _ => ⟨rfl, rfl, rfl, rfl, rfl⟩, fun _ => ⟨rfl, rfl, rfl, rfl⟩, fun _ => rfl, fun _ => rfl, .inr ⟨f, rfl⟩⟩

theorem blockFrame_loadb {p : Params} {e e1 : Engine} (h : performLoadb p e = .ok e1) (w : SeqWord) :
    BlockFrame .loadb e { e1 with seq := w } := by
  obtain ⟨_, -, _, -, _, -, -, rfl⟩ := performLoadb_eq_ok.mp h
  exact ⟨rfl, rfl, fun _ => ⟨rfl, rfl, rfl, rfl, rfl⟩, nofun, fun hne => absurd rfl hne, fun _ => rfl, .inl rfl⟩

/-- A round writes the working words only; `i` is its instruction. -/
theorem blockFrame_round {i : Instr} {aux : Word → Word → Word → Word} {ri : RoundIndex} {p : Params} {e e1 : Engine}
    (hi : ¬ (i = .accum ∨ i = .serial)) (h : roundStep aux ri p e = .ok e1) (w : SeqWord) :
    BlockFrame i e { e1 with seq := w } := by
  obtain ⟨_, _, -, -, -, -, -, _, -, rfl⟩ := roundStep_eq_ok.mp h
  exact ⟨rfl, rfl, fun _ => ⟨rfl, rfl, rfl, rfl, rfl⟩, fun hi' => absurd hi' hi, fun _ => rfl, fun _ => rfl, .inl rfl⟩

theorem blockFrame_accum {p : Params} {e e1 : Engine} (h : performAccum p e = .ok e1) (w : SeqWord) :
    BlockFrame .accum e { e1 with seq := w } := by
  obtain ⟨_, _, _, -, -, -, -, -, -, -, -, -, rfl⟩ := performAccum_eq_ok.mp h
  exact ⟨rfl, rfl, fun hne => absurd rfl hne, fun _ => ⟨rfl, rfl, rfl, rfl⟩, fun _ => rfl, fun _ => rfl, .inl rfl⟩

theorem blockFrame_serial {p : Params} {e e1 : Engine} (h : performSerial p e = .ok e1) (w : SeqWord) :
    BlockFrame .serial e { e1 with seq := w } := by
  obtain ⟨_, -, rfl⟩ := performSerial_eq_ok.mp h
  exact ⟨rfl, rfl, fun _ => ⟨rfl, rfl, rfl, rfl, rfl⟩, fun _ => ⟨rfl, rfl, rfl, rfl⟩, fun _ => rfl,
    fun hne => absurd rfl hne, .inl rfl⟩

/-- Settles O28: a block operation that faults changes the record only; otherwise its writes and `SEQ` are all. -/
theorem blockOperationsFrame : Obligations.BlockOperationsFrame := by
  intro i s t e e' h hc hc' hi
  have round : ∀ {aux ri}, performOf i = some (roundStep aux ri) → ¬ (i = .accum ∨ i = .serial) →
      BlockFrame i e e' ∧ t = s.setCur e' := fun hp hne =>
    exec_microOp_frame h hc hc' hp (blockFrame_record i e) fun _ w hok => blockFrame_round hne hok w
  have hframe : BlockFrame i e e' ∧ t = s.setCur e' := by
    obtain rfl | ⟨r, rfl | rfl | rfl | rfl⟩ | rfl | rfl := hi
    · exact exec_microOp_frame h hc hc' rfl (blockFrame_record _ e) fun _ w hok => blockFrame_loadb hok w
    · exact round (aux := auxF) rfl nofun
    · exact round (aux := auxG) rfl nofun
    · exact round (aux := auxH) rfl nofun
    · exact round (aux := auxI) rfl nofun
    · exact exec_microOp_frame h hc hc' rfl (blockFrame_record _ e) fun _ w hok => blockFrame_accum hok w
    · exact exec_microOp_frame h hc hc' rfl (blockFrame_record _ e) fun _ w hok => blockFrame_serial hok w
  obtain ⟨⟨hol, hbuf, hH, hW, hm, hdout, hfaults⟩, ht⟩ := hframe
  refine ⟨hol, hbuf, fun buf buf' hb hb' j => ?_, hH, hW, hm, hdout, hfaults, ht⟩
  obtain rfl : buf' = buf := Reg.holds.inj (hb'.symm.trans (hbuf.trans hb))
  rfl

/-! ## The host commands and the waiting states -/

/-- START writes `BUF` and `SEQ`, or the record only, or nothing (R200). -/
theorem execStart_frame {msg : List Byte} {s t : State} {e e' : Engine} (h : exec (.start msg) s = .next t)
    (hc : s.cur = some e) (hc' : t.cur = some e') :
    e' = { e with buf := e'.buf, seq := e'.seq, faults := e'.faults } ∧ t = s.setCur e' ∧
      (e'.faults ≠ e.faults → e'.buf = e.buf ∧ e'.seq = e.seq) := by
  obtain ⟨f, rfl, ht⟩ | ⟨_, _, _, hp, -⟩ | ⟨-, rfl, rfl⟩ | ⟨msg', -, -, -, rfl, ht⟩ | ⟨hi, -⟩ | ⟨hi, -⟩ :=
    exec_engine_cases h hc hc'
  · exact ⟨rfl, ht, fun _ => ⟨rfl, rfl⟩⟩
  · cases hp
  · exact ⟨rfl, (State.setCur_self hc).symm, fun _ => ⟨rfl, rfl⟩⟩
  · exact ⟨rfl, ht, fun hne => absurd (Engine.load_faults e msg') hne⟩
  · cases hi
  · cases hi

/-- RDSTAT writes no register (R201). -/
theorem execRdstat_frame {s t : State} {e e' : Engine} (h : exec .rdstat s = .next t) (hc : s.cur = some e)
    (hc' : t.cur = some e') : e' = e ∧ t = { s with reply := t.reply } := by
  obtain ⟨_, -, rfl⟩ := execRdstat_next h
  exact ⟨Option.some.inj (hc'.symm.trans hc), rfl⟩

/-- RDDIG writes no register, and answers nothing when it faults (R202). -/
theorem execRddig_frame {s t : State} {e e' : Engine} (h : exec .rddig s = .next t) (hc : s.cur = some e)
    (hc' : t.cur = some e') :
    e' = { e with faults := e'.faults } ∧ t = { s.setCur e' with reply := t.reply } ∧
      (e'.faults ≠ e.faults → t.reply = s.reply) := by
  obtain ⟨f, rfl, rfl⟩ | ⟨_, _, _, hp, -⟩ | ⟨hi, -⟩ | ⟨_, hi, -⟩ | ⟨hi, -⟩ | ⟨-, rfl, -, -, rfl⟩ :=
    exec_engine_cases h hc hc'
  · exact ⟨rfl, rfl, fun _ => rfl⟩
  · cases hp
  · obtain hi | hi | ⟨_, hi, -⟩ := hi <;> cases hi
  · cases hi
  · cases hi
  · exact ⟨rfl, by rw [State.setCur_self hc], fun hne => absurd rfl hne⟩

/-- Settles O29: command by command; the waiting states take no step. -/
theorem hostCommandsFrame : Obligations.HostCommandsFrame := by
  intro i s t e e' h hc hc'
  refine ⟨?_, ?_, ?_, ?_⟩
  · rintro ⟨msg, rfl⟩
    exact execStart_frame h hc hc'
  · rintro rfl
    exact execRdstat_frame h hc hc'
  · rintro rfl
    exact execRddig_frame h hc hc'
  · rintro (rfl | rfl)
    · exact (noStep_next h).2
    · exact (noStep_next h).2

end Sys2Proof.Machine
end

section
/-!
PROOF. The message buffer (spec/20_memory.md R52, R53, R57): reads after writes, LOADB past the end, what core steps do to
`BUF`, and the length field of the last block.
-/

namespace Sys2Proof.Machine

/-! ## Reads after writes -/

/-- In a canonical buffer a read fails exactly when its range ends past len(BUF) (R52). -/
theorem Memory.isNone_read {buf : Memory} (hw : buf.wf = true) {n : Nat} (hn : 0 < n) (j : Nat) :
    (buf.read j n).isNone = decide (buf.len < j + n) := by
  rw [Memory.eq_ofBytes_of_wf hw, ← Option.not_isSome, Memory.read_ofBytes_isSome _ _ _ hn, Memory.len_ofBytes,
    ← decide_not, decide_eq_decide, Nat.not_le]

@[simp] theorem Memory.len_write (buf : Memory) (n v : Nat) : (buf.write n v).len = buf.len + n := by
  rw [Memory.write, Memory.len_append, length_leBytes]

/-- A value written at len(BUF) reads back, cut to its `n` bytes (R52, R53). -/
theorem Memory.read_write {buf : Memory} (hw : buf.wf = true) (n v : Nat) :
    (buf.write n v).read buf.len n = some (v % 256 ^ n) := by
  rw [Memory.eq_ofBytes_of_wf hw, Memory.write, Memory.append_ofBytes, Memory.len_ofBytes, Memory.read,
    Memory.readBytes_ofBytes _ _ _ (by simp), List.drop_left, List.take_of_length_le (by simp), Option.map_some,
    leValue_leBytes]

/-- Settles O45: on a canonical buffer, which is a byte sequence laid out from 0, a write is the longer sequence. -/
theorem bufferReadsBackWhatWasAppended : Obligations.BufferReadsBackWhatWasAppended := by
  intro buf n v hw hn hv
  refine ⟨Memory.wf_write hw n v, Memory.len_write buf n v, ?_, fun _ => Memory.byteAt_write_outside buf n v,
    fun j => ?_⟩
  · rw [Nat.pow_mul] at hv
    rw [Memory.read_write hw, Nat.mod_eq_of_lt hv]
  · rw [← Option.isNone_iff_eq_none, Memory.isNone_read hw hn, decide_eq_true_eq]

/-! ## LOADB past the end -/

/-- The first word of the block that is out of range is the one with only words in range before it (R120, log 11). -/
theorem Memory.firstBadWord_eq_some {buf : Memory} (hw : buf.wf = true) {base j : Nat} (hj : j < 16)
    (hbad : buf.len < base + 4 * j + 4) (hgood : ∀ j', j' < j → base + 4 * j' + 4 ≤ buf.len) :
    buf.firstBadWord base = some (base + 4 * j) := by
  have hfind : (List.range 16).find? (fun i => (buf.read (base + 4 * i) 4).isNone) = some j := by
    simp only [Memory.isNone_read hw (Nat.succ_pos 3), List.find?_range_eq_some, List.mem_range, Bool.not_eq_true',
      decide_eq_true_eq, decide_eq_false_iff_not, Nat.not_lt]
    exact ⟨hbad, hj, hgood⟩
  rw [Memory.firstBadWord, List.find?_map]
  exact congrArg (Option.map _) hfind

/-- LOADB with every operand written faults where its block has a word out of range (R120, R224). -/
theorem performLoadb_of_firstBadWord {p : Params} {e : Engine} {buf : Memory} {blk j : Nat} {q : Quad}
    (hb : e.buf = .holds buf) (hk : e.blk = .holds blk) (hq : e.HoldsH q)
    (hbad : buf.firstBadWord (64 * blk) = some j) : performLoadb p e = .error (.bufRange e.seq j) := by
  have hh : e.readH = .ok q := Engine.readH_eq_ok.mpr hq
  simp only [performLoadb, hb, hk, hh, Engine.read_holds, Except.ok_bind, hbad]

/-- Settles O17: the first word out of range is the one after the whole words of the block inside the buffer. -/
theorem loadbPastTheEndRaisesBufRange : Obligations.LoadbPastTheEndRaisesBufRange := by
  intro s e buf blk q hc hb hk hq hw hlen
  obtain ⟨j, hj⟩ : ∃ j, j = (buf.len - 64 * blk) / 4 := ⟨_, rfl⟩
  have hj16 : j < 16 := by omega
  have hbad : buf.len < 64 * blk + 4 * j + 4 := by omega
  have hgood : ∀ j', j' < j → 64 * blk + 4 * j' + 4 ≤ buf.len := fun j' _ => by omega
  have hfirst := Memory.firstBadWord_eq_some hw hj16 hbad hgood
  refine ⟨j, hj16, hbad, hgood, ?_⟩
  rw [exec_eq_microOp (i := .loadb) rfl]
  exact microOp_of_error hc (performLoadb_of_firstBadWord hb hk hq hfirst)

/-! ## Core steps append -/

/-- A buffer held before is held after, with at most 8 bytes appended (R53). -/
def Engine.AppendsToBuf (e e' : Engine) : Prop :=
  ∀ buf, e.buf = .holds buf → ∃ xs : List Byte, e'.buf = .holds (buf.append xs) ∧ xs.length ≤ 8

@[simp] theorem Memory.append_nil (buf : Memory) : buf.append [] = buf := by
  simp [Memory.append, cellsFrom]

theorem Engine.appendsToBuf_of_eq {e e' : Engine} (h : e'.buf = e.buf) : e.AppendsToBuf e' := fun buf hb =>
  ⟨[], by rw [h, hb, Memory.append_nil], Nat.zero_le 8⟩

theorem perform_appendsToBuf {i : Instr} {perform : Params → Engine → Except CoreFault Engine} {p : Params}
    {e e1 : Engine} (hp : performOf i = some perform) (h : perform p e = .ok e1) : e.AppendsToBuf e1 := by
  obtain hb | ⟨buf, xs, hb, hb1, hlen⟩ := perform_buf hp h
  · exact Engine.appendsToBuf_of_eq hb
  · intro buf' hb'
    obtain rfl : buf = buf' := Reg.holds.inj (hb.symm.trans hb')
    exact ⟨xs, hb1, hlen⟩

/-- START alone replaces the buffer (R200). -/
theorem exec_appendsToBuf {i : Instr} {s t : State} {e e' : Engine} (hi : ∀ msg, i ≠ .start msg)
    (h : exec i s = .next t) (hc : s.cur = some e) (hc' : t.cur = some e') : e.AppendsToBuf e' := by
  obtain ⟨f, rfl, -⟩ | ⟨_, e1, w, hp, hok, -, rfl, -⟩ | ⟨-, rfl, -⟩ | ⟨msg, rfl, -⟩ | ⟨-, rfl, -⟩ | ⟨-, rfl, -⟩ :=
    exec_engine_cases h hc hc'
  · exact Engine.appendsToBuf_of_eq (Engine.record_buf e f)
  · have happ : e.AppendsToBuf e1 := perform_appendsToBuf hp hok
    exact happ
  · exact Engine.appendsToBuf_of_eq rfl
  · exact absurd rfl (hi msg)
  · exact Engine.appendsToBuf_of_eq rfl
  · exact Engine.appendsToBuf_of_eq rfl

/-- No control word is a START (R75). -/
theorem ne_start_of_decodeSeq {w : SeqWord} {i : Instr} (h : decodeSeq w = .ok i) (msg : List Byte) :
    i ≠ .start msg := by
  rintro rfl
  obtain ⟨ri, -, hri⟩ : ∃ ri, w = enc 0x6#4 ri ∧ .start msg = roundInstr ri := by simpa using decodeSeq_cases h
  simpa [← hri] using roundInstr_cases ri

/-- Settles O33: the engine is left as it is, records a fault or runs an instruction that is not START. -/
theorem coreStepsOnlyAppendToTheBuffer : Obligations.CoreStepsOnlyAppendToTheBuffer := by
  intro s t k e e' buf h hcore hk hk' hb
  suffices e.AppendsToBuf e' from this buf hb
  obtain rfl | ⟨f, rfl, -⟩ | ⟨_, _, -, -, hd, hx, hc, hc'⟩ | ⟨_, _, _, _, ha, -⟩ | ⟨_, ha, -⟩ :=
    step_engine_cases h hk hk'
  · exact Engine.appendsToBuf_of_eq rfl
  · exact Engine.appendsToBuf_of_eq (Engine.record_buf e f)
  · exact exec_appendsToBuf (ne_start_of_decodeSeq hd) hx hc hc'
  · simp [ha] at hcore
  · simp [ha] at hcore

/-! ## The length field -/

theorem leBytes_add (m n v : Nat) : leBytes (m + n) v = leBytes m v ++ leBytes n (v / 256 ^ m) := by
  induction m generalizing v with
  | zero => simp [leBytes]
  | succ m ih =>
    rw [Nat.succ_add, leBytes, leBytes, ih, Nat.div_div_eq_div_mul, ← Nat.pow_succ', List.cons_append]

/-- A word stored as four little-endian bytes at word `j` of block `k` is that word of the block (R54, R121). -/
theorem blockWord_append_leBytes {pre : List Byte} {k : Nat} {j : Fin 16} (hpre : pre.length = 64 * k + 4 * j.val)
    (v : Nat) (post : List Byte) : blockWord (pre ++ leBytes 4 v ++ post) k j = BitVec.ofNat 32 v := by
  have hbyte : ∀ t < 4, (pre ++ leBytes 4 v ++ post).getD (64 * k + 4 * j.val + t) 0 = (leBytes 4 v).getD t 0 := by
    intro t ht
    rw [← hpre, List.append_assoc, List.getD_append_right _ _ _ _ (by omega), Nat.add_sub_cancel_left,
      List.getD_append _ _ _ _ (by simpa using ht)]
  have hbytes : [(leBytes 4 v).getD 0 0, (leBytes 4 v).getD 1 0, (leBytes 4 v).getD 2 0, (leBytes 4 v).getD 3 0] =
      leBytes 4 v := rfl
  calc blockWord (pre ++ leBytes 4 v ++ post) k j
      = ((leBytes 4 v).getD 3 0 ++ (leBytes 4 v).getD 2 0) ++ ((leBytes 4 v).getD 1 0 ++ (leBytes 4 v).getD 0 0) := by
        rw [← hbyte 3 (by omega), ← hbyte 2 (by omega), ← hbyte 1 (by omega), ← hbyte 0 (by omega)]
        rfl
    _ = BitVec.ofNat 32 (leValue (leBytes 4 v)) := by rw [← ofNat_leValue_four, hbytes]
    _ = BitVec.ofNat 32 v := by
        rw [leValue_leBytes]
        exact BitVec.eq_of_toNat_eq (Nat.mod_mod v _)

/-- Everything of the padded message before its length field (R105). -/
def padHead (msg : List Byte) : List Byte := msg ++ [0x80] ++ List.replicate (zeroCount msg.length) 0x00

theorem padMessage_eq (msg : List Byte) :
    padMessage msg = padHead msg ++ leBytes 8 (msg.length * 8 % 2 ^ 64) := rfl

/-- The length field starts at word 14 of the last block (R57, R105). -/
theorem length_padHead (msg : List Byte) : (padHead msg).length = 64 * (blockCount msg.length - 1) + 56 := by
  have hlen := length_padMessage msg
  have hpos := blockCount_pos msg.length
  rw [padMessage_eq, List.length_append, length_leBytes] at hlen
  omega

/-- Settles O53: the length field is two words of four bytes each. -/
theorem lengthFieldIsTheLastTwoWords : Obligations.LengthFieldIsTheLastTwoWords := by
  intro msg
  have hpre := length_padHead msg
  have hpad : padMessage msg = padHead msg ++ leBytes 4 (msg.length * 8 % 2 ^ 64) ++
      leBytes 4 (msg.length * 8 % 2 ^ 64 / 2 ^ 32) := by
    rw [padMessage_eq, List.append_assoc]
    exact congrArg (padHead msg ++ ·) (leBytes_add 4 4 _)
  constructor
  · rw [hpad, blockWord_append_leBytes hpre]
    apply BitVec.eq_of_toNat_eq
    simp only [BitVec.toNat_ofNat]
    omega
  · rw [hpad, ← List.append_nil (_ ++ _), blockWord_append_leBytes (by simp [hpre])]
    apply BitVec.eq_of_toNat_eq
    simp only [BitVec.toNat_ofNat]
    omega

end Sys2Proof.Machine
end

section
/-!
PROOF. The encoding of the instructions (spec/30_encoding.md R71 to R78): decoder and encoder are inverse, which `SEQ` values
are illegal, that no step writes one, and what a host command runs.
-/

namespace Sys2Proof

/-! ## The encoder and the decoder are inverse -/

/-- The ROUND rows read back: `RI` alone names the round again. -/
theorem decode_enc_round {i : Instr} {ri : RoundIndex} (h : roundInstr ri = i) : decode (.seq (enc 0x6#4 ri)) = .ok i :=
  h ▸ decodeSeq_round ri

/-- Decoding inverts encoding, row by row of the tables (R72, R78). -/
theorem decode_encode {i : Instr} (h : i.wellFormed = true) : decode (encode i) = .ok i := by
  cases i with
  | idle => exact decodeSeq_idle
  | init => exact decodeSeq_init
  | padm => exact decodeSeq_padm
  | padz => exact decodeSeq_padz
  | aplen => exact decodeSeq_aplen
  | loadb => exact decodeSeq_loadb
  | roundf ri =>
    obtain ⟨-, hhi⟩ := (inQuarter_iff _ ri).mp h
    exact decode_enc_round (roundInstr_f hhi)
  | roundg ri =>
    obtain ⟨hlo, hhi⟩ := (inQuarter_iff _ ri).mp h
    exact decode_enc_round (roundInstr_g hlo hhi)
  | roundh ri =>
    obtain ⟨hlo, hhi⟩ := (inQuarter_iff _ ri).mp h
    exact decode_enc_round (roundInstr_h hlo hhi)
  | roundi ri =>
    obtain ⟨hlo, -⟩ := (inQuarter_iff _ ri).mp h
    exact decode_enc_round (roundInstr_i hlo)
  | accum => exact decodeSeq_accum
  | serial => exact decodeSeq_serial
  | done => exact decodeSeq_done
  | start msg => rfl
  | rdstat => rfl
  | rddig => rfl

/-- Settles O1: each row of the tables decodes to its own instruction, a round by its quarter. -/
theorem encodedInstructionDecodesToItself : Obligations.EncodedInstructionDecodesToItself := fun _ => decode_encode

/-- The round an index selects is well-formed, and its word carries that index (R72, R73). -/
theorem roundInstr_wellFormed_encode (ri : RoundIndex) :
    (roundInstr ri).wellFormed = true ∧ encode (roundInstr ri) = .seq (enc 0x6#4 ri) := by
  have hlt := ri.isLt
  obtain ⟨h, heq⟩ | ⟨hl, h, heq⟩ | ⟨hl, h, heq⟩ | ⟨h, heq⟩ := roundInstr_cases ri
  all_goals
    rw [heq]
    exact ⟨(inQuarter_iff _ ri).mpr (by omega), rfl⟩

theorem wellFormed_encode_of_decodeSeq {w : SeqWord} {i : Instr} (h : decodeSeq w = .ok i) :
    i.wellFormed = true ∧ encode i = .seq w := by
  obtain ⟨rfl, rfl⟩ | ⟨rfl, rfl⟩ | ⟨rfl, rfl⟩ | ⟨rfl, rfl⟩ | ⟨rfl, rfl⟩ | ⟨rfl, rfl⟩ | ⟨ri, rfl, rfl⟩ | ⟨rfl, rfl⟩ |
    ⟨rfl, rfl⟩ | ⟨rfl, rfl⟩ := decodeSeq_cases h
  case inr.inr.inr.inr.inr.inr.inl => exact roundInstr_wellFormed_encode ri
  all_goals exact ⟨rfl, rfl⟩

theorem wellFormed_encode_of_decodeHost {code : Byte} {payload : List Byte} {i : Instr}
    (h : decodeHost code payload = .ok i) :
    i.wellFormed = true ∧ encode i = .host code (if code = 0x01#8 then payload else []) := by
  obtain ⟨rfl, rfl⟩ | ⟨rfl, rfl⟩ | ⟨rfl, rfl⟩ := decodeHost_cases h <;> exact ⟨rfl, rfl⟩

/-- Settles O2: the words the two decoders accept are the rows of the tables. -/
theorem acceptedWordIsTheEncodingOfItsInstruction : Obligations.AcceptedWordIsTheEncodingOfItsInstruction :=
  ⟨fun _ _ => wellFormed_encode_of_decodeSeq, fun _ _ _ => wellFormed_encode_of_decodeHost⟩

/-! ## The illegal control words -/

/-- Among the plain words, those with `RSV` and `RI` 0 and no round, an `OP` from 10 on has no row (R72, R76). -/
theorem decodeSeq_plain_illegal_iff : ∀ op : BitVec 4, op ≠ 0x6#4 →
    (decodeSeq (enc op 0#6) = .error (.illegalSeq (enc op 0#6)) ↔ 10 ≤ op.toNat) := by decide

/-- The illegal words by their fields (R76). -/
theorem decodeSeq_eq_illegal_iff {w : SeqWord} : decodeSeq w = .error (.illegalSeq w) ↔
    10 ≤ (opField w).toNat ∨ rsvField w ≠ 0#6 ∨ (riField w ≠ 0#6 ∧ opField w ≠ 0x6#4) := by
  by_cases hrsv : rsvField w = 0#6
  · by_cases hop : opField w = 0x6#4
    · simp [decodeSeq, hrsv, hop]
    · by_cases hri : riField w = 0#6
      · have hw : enc (opField w) 0#6 = w := hri ▸ enc_fields w hrsv
        have hplain := decodeSeq_plain_illegal_iff (opField w) hop
        rw [hw] at hplain
        simp [hplain, hrsv, hri]
      · simp [decodeSeq, hrsv, hop, hri]
  · simp [decodeSeq, hrsv]

/-- Settles O4: the accepted words are the encodings of their instructions, the refused ones fail by `OP`, `RI`, `RSV` and
the command code in turn. -/
theorem sampleWordsDecodeAsTabled : Obligations.SampleWordsDecodeAsTabled :=
  ⟨decodeSeq_idle, decodeSeq_init, decodeSeq_padz, decode_encode (i := .roundf 15#6) rfl,
    decode_encode (i := .roundg 16#6) rfl, decode_encode (i := .roundh 32#6) rfl, decode_encode (i := .roundi 63#6) rfl,
    decodeSeq_done, decodeSeq_eq_illegal_iff.mpr (.inl (by decide)),
    decodeSeq_eq_illegal_iff.mpr (.inr (.inr (by decide))), decodeSeq_eq_illegal_iff.mpr (.inr (.inl (by decide))), rfl, rfl,
    decodeHost_reserved (by decide) (by decide) (by decide)⟩

end Sys2Proof

namespace Sys2Proof.Machine

/-! ## No step writes an illegal control word -/

/-- An instruction leaves `SEQ` or writes a legal word: only a micro-operation's next word (R182) and START's (R200) are
written. -/
theorem exec_seq_legal {i : Instr} {s t : State} {e e' : Engine} (h : exec i s = .next t) (hc : s.cur = some e)
    (hc' : t.cur = some e') : e'.seq = e.seq ∨ ∃ op, decodeSeq e'.seq = .ok op := by
  obtain ⟨f, rfl, -⟩ | ⟨_, e1, w, hp, hok, hw, rfl, -⟩ | ⟨-, rfl, -⟩ | ⟨msg, -, -, -, rfl, -⟩ | ⟨-, rfl, -⟩ |
    ⟨-, rfl, -⟩ := exec_engine_cases h hc hc'
  · exact .inl (Engine.record_seq e f)
  · exact (perform_seq_faults hp hok).1 ▸ nextSeq_legal hw
  · exact .inl rfl
  · exact .inr ⟨.init, decodeSeq_init⟩
  · exact .inl rfl
  · exact .inl rfl

/-- No step writes an illegal word: the one thing besides instructions that writes `SEQ` is reset, to IDLE (R38). -/
theorem step_seq_legal {s t : State} {k : Nat} {e e' : Engine} (h : step s = .next t) (hk : s.engines[k]? = some e)
    (hk' : t.engines[k]? = some e') : e'.seq = e.seq ∨ ∃ op, decodeSeq e'.seq = .ok op := by
  obtain rfl | ⟨f, rfl, -⟩ | ⟨_, _, -, -, -, hx, hc, hc'⟩ | ⟨_, _, _, _, -, -, hx, hc, hc'⟩ | ⟨_, -, rfl⟩ :=
    step_engine_cases h hk hk'
  · exact .inl rfl
  · exact .inl (Engine.record_seq e f)
  · exact exec_seq_legal hx hc hc'
  · exact exec_seq_legal hx hc hc'
  · exact .inr ⟨.idle, decodeSeq_idle⟩

/-- The first fault recorded is the only one (R39). -/
theorem Engine.record_of_faults_nil {e : Engine} (hf : e.faults = []) (f : CoreFault) :
    e.record f = { e with faults := [f] } := by
  simp [Engine.record, hf]

/-- Settles O3: the illegal words by their fields, the core step on one, and what a step leaves in `SEQ`. -/
theorem illegalControlWordsFaultAndAreNeverWritten : Obligations.IllegalControlWordsFaultAndAreNeverWritten := by
  refine ⟨fun w => decodeSeq_eq_illegal_iff, fun s k rest e hm hk hf hd => ?_, fun s t k e e' => step_seq_legal⟩
  rw [← Engine.record_of_faults_nil hf]
  exact step_core_illegal hm hk hf hd

/-! ## The host commands -/

/-- RDSTAT on an engine that exists (R201). -/
theorem exec_rdstat {s : State} {e : Engine} (hc : s.cur = some e) :
    exec .rdstat s = .next { s with reply := .status (statusOf e.seq) } := by
  simp only [exec, execRdstat, hc]

/-- Settles O6: a host move runs the decoded command, and WAIT's poll is RDSTAT on the state with the agenda WAIT leaves. -/
theorem hostMoveRunsTheDecodedCommand : Obligations.HostMoveRunsTheDecodedCommand := by
  intro s k rest e hk
  refine ⟨fun _ _ _ ha hd => step_host_run ha hk hd, fun ha => ?_⟩
  rw [step_wait ha hk, exec_rdstat (s := s.takeHost k _) hk]
  simp only [isDone_iff, opField, State.coreRound]

/-! ## The digest characters -/

theorem toNat_hexChar_of_le {v : BitVec 4} (h : v.toNat ≤ 9) : (hexChar v).toNat = 0x30 + v.toNat := by
  rw [hexChar, if_pos h, BitVec.toNat_ofNat]
  omega

theorem toNat_hexChar_of_ge {v : BitVec 4} (h : 10 ≤ v.toNat) : (hexChar v).toNat = 0x61 + (v.toNat - 10) := by
  have hlt := v.isLt
  rw [hexChar, if_neg (by omega), BitVec.toNat_ofNat]
  omega

/-- `'0'..'9'` or `'a'..'f'` in ASCII. -/
theorem hexChar_range (v : BitVec 4) :
    (0x30 ≤ (hexChar v).toNat ∧ (hexChar v).toNat ≤ 0x39) ∨ (0x61 ≤ (hexChar v).toNat ∧ (hexChar v).toNat ≤ 0x66) := by
  have hlt := v.isLt
  obtain h | h := Nat.lt_or_ge 9 v.toNat
  · rw [toNat_hexChar_of_ge h]
    omega
  · rw [toNat_hexChar_of_le h]
    omega

/-- SERIAL with `HA..HD` written completes (R170). -/
theorem exec_serial {s : State} {e : Engine} {q : Quad} (hc : s.cur = some e) (hq : e.HoldsH q) :
    exec .serial s = .next (s.setCur { e with dout := (digestChars q).map .holds, seq := enc 0x9#4 0#6 }) :=
  microOp_of_ok (op := .serial) hc (performSerial_eq_ok.mpr ⟨q, Engine.readH_eq_ok.mpr hq, rfl⟩) rfl

/-- Settles O51: `hexChar` on both sides of 9/10, and every character SERIAL stores is a `hexChar`. -/
theorem digestCharactersAreLowerCaseHex : Obligations.DigestCharactersAreLowerCaseHex := by
  refine ⟨fun v => ⟨toNat_hexChar_of_le, toNat_hexChar_of_ge⟩, fun s e q hc hq => ?_⟩
  refine ⟨_, _, exec_serial hc hq, State.cur_setCur hc _, fun n => ⟨digestChar q n.val, ?_, hexChar_range _⟩⟩
  simp [digestChars]

end Sys2Proof.Machine
end

section
/-!
PROOF. The padding engine (spec/40_padding.md R100 to R106): what INIT, PADM, PADZ and APLEN do with their operands written,
the run of the four over a message, and the padded length.
-/

namespace Sys2Proof.Machine

/-! ## The operations -/

/-- Settles O12: `BUF` is INIT's one operand. -/
theorem initCapturesLengthAndLoadsTheInitialState : Obligations.InitCapturesLengthAndLoadsTheInitialState := by
  refine ⟨decodeSeq_init, fun s e hc => ⟨fun buf hb => ?_, fun hb => ?_⟩⟩
  · exact microOp_of_ok (op := .init) hc (performInit_eq_ok.mpr ⟨buf, hb, rfl⟩) rfl
  · have hperform : performInit s.params e = .error (.unwrittenRead e.seq .buf) := by simp [performInit, hb]
    exact microOp_of_error (op := .init) hc hperform

/-- The padding rows of R182, on the length with the byte just appended. -/
theorem nextPad_append_singleton (buf : Memory) (x : Byte) :
    nextPad (buf.append [x]) = if (buf.len + 1) % 64 = 56 then 0x4000#16 else 0x3000#16 := by
  rw [nextPad, Memory.len_append]
  rfl

/-- Settles O13: the marker is one little-endian byte. -/
theorem padmAppendsTheMarkerByte : Obligations.PadmAppendsTheMarkerByte := by
  refine ⟨decodeSeq_padm, fun s e buf hc hb => ?_⟩
  rw [← nextPad_append_singleton buf 0x80#8]
  exact microOp_of_ok (op := .padm) hc (performPadm_eq_ok.mpr ⟨buf, hb, rfl⟩) rfl

/-- Settles O14: the zero byte is one little-endian byte. -/
theorem padzAppendsOneZeroByte : Obligations.PadzAppendsOneZeroByte := by
  refine ⟨decodeSeq_padz, fun s e buf hc hb => ?_⟩
  rw [← nextPad_append_singleton buf 0x00#8]
  exact microOp_of_ok (op := .padz) hc (performPadz_eq_ok.mpr ⟨buf, hb, rfl⟩) rfl

/-- Settles O15: the tail is `LE_8` of the bit length. -/
theorem aplenAppendsTheBitLength : Obligations.AplenAppendsTheBitLength := by
  refine ⟨decodeSeq_aplen, fun s e buf ol hc hb ho => ?_⟩
  refine ⟨leBytes 8 (bitLength ol).toNat, length_leBytes _ _, fun t ht => ?_, ?_⟩
  · rw [getElem?_leBytes _ ht, bitLength_toNat]
  · exact microOp_of_ok (op := .aplen) hc (performAplen_eq_ok.mpr ⟨ol, ho, buf, hb, rfl⟩) rfl

/-! ## A run of core steps, by phases -/

/-- `n` core steps of an engine take it `n` phases further, without a fault, as long as the run is not over. The block
counter has to advance only in the ACCUMs that the `n` steps come to. -/
theorem run_phases {s : State} {k n : Nat} {rest : List Event} {e : Engine} {msg : List Byte} {ph : Phase}
    (ha : s.agenda = List.replicate n (.core k) ++ rest) (hk : s.engines[k]? = some e) (hf : e.faults = [])
    (h : e.InPhase msg ph) (hn : ph.index msg.length + n ≤ stepCount msg.length)
    (hblk : ∀ j, j < blockCount msg.length → (Phase.accum j).index msg.length < ph.index msg.length + n →
      blkSucc s.params j = j + 1) :
    ∃ t e' ph', Host.Core.run Sys2Proof.core n s = .next t ∧ t.agenda = rest ∧ t.engines[k]? = some e' ∧ e'.faults = [] ∧
      e'.InPhase msg ph' ∧ ph'.index msg.length = ph.index msg.length + n := by
  induction n generalizing s e ph with
  | zero => exact ⟨s, e, ph, rfl, ha, hk, hf, h, rfl⟩
  | succ n ih =>
    have hrun : ph.inRun msg.length := h.1
    have hnext : (ph.next msg.length).index msg.length = ph.index msg.length + 1 :=
      Phase.index_next hrun (by rintro rfl; simp only [Phase.index] at hn; omega)
    have hblk0 : ∀ j, ph = .accum j → blkSucc s.params j = j + 1 := by
      rintro j rfl
      exact hblk j hrun (by omega)
    obtain ⟨e1, hstep, hf1, h1⟩ := step_phase (.inl ha) hk hf hblk0 h
    have hk1 : ((s.take k (List.replicate n (.core k) ++ rest)).setCur e1).engines[k]? = some e1 :=
      State.cur_setCur (s := s.take k _) hk e1
    obtain ⟨t, e', ph', hrunn, ht, hk', hf', h', hindex⟩ := ih rfl hk1 hf1 h1 (by omega)
      fun j hj hlt => hblk j hj (by omega)
    exact ⟨t, e', ph', (run_succ hstep).trans hrunn, ht, hk', hf', h', by omega⟩

/-- The phase 3 + z core steps after INIT's is the first LOADB (R104, R185). -/
theorem Phase.eq_loadb_zero_of_index {len : Nat} {ph : Phase} (hi : ph.index len = 3 + zeroCount len) (hr : ph.inRun len) :
    ph = .loadb 0 := by
  have hpos := blockCount_pos len
  cases ph with
  | loadb k =>
    obtain rfl : k = 0 := by simp only [Phase.index] at hi; omega
    rfl
  | padz z =>
    simp only [Phase.inRun] at hr
    simp only [Phase.index] at hi
    omega
  | done =>
    simp only [Phase.index, stepCount] at hi
    omega
  | _ =>
    simp only [Phase.index] at hi
    omega

/-- LOADB's word is the one that decodes to it (R72). -/
theorem seq_of_decodeSeq_loadb {w : SeqWord} (h : decodeSeq w = .ok .loadb) : w = enc 0x5#4 0#6 :=
  (Encoded.seq.inj (wellFormed_encode_of_decodeSeq h).2).symm

/-- Settles O40: the phase reached is the first LOADB, whose buffer is the padded message; no ACCUM comes before it. -/
theorem paddingEngineBuildsThePaddedBuffer : Obligations.PaddingEngineBuildsThePaddedBuffer := by
  intro s k e msg rest hk hf hseq hb ha
  have hinit : e.InPhase msg .init := ⟨trivial, hseq ▸ decodeSeq_init, hb⟩
  have hsteps : Phase.init.index msg.length + (3 + zeroCount msg.length) ≤ stepCount msg.length := by
    simp only [Phase.index, stepCount]
    omega
  obtain ⟨t, e', ph, hrun, ht, hk', hf', h, hindex⟩ := run_phases (n := 3 + zeroCount msg.length) ha hk hf hinit hsteps
    fun j _ hlt => by simp only [Phase.index] at hlt; omega
  obtain rfl : ph = .loadb 0 := Phase.eq_loadb_zero_of_index (hindex.trans (Nat.zero_add _)) h.1
  obtain ⟨-, hdecode, hbuf, -⟩ := h
  exact ⟨t, e', hrun, ht, hk', hf', seq_of_decodeSeq_loadb hdecode, hbuf⟩

/-! ## The padded length -/

/-- Settles O52: the padded message is `nb` blocks, and `nb` steps where the marker and the length no longer fit. -/
theorem paddedLengthIsAWholeNumberOfBlocks : Obligations.PaddedLengthIsAWholeNumberOfBlocks := by
  intro msg
  refine ⟨length_padMessage msg, fun h => ?_, fun h => ?_, rfl, rfl, rfl, rfl⟩
  all_goals
    rw [blockCount]
    omega

end Sys2Proof.Machine
end

section
/-!
PROOF. The deserializer (spec/41_deserializer.md R120, R121): LOADB of a block whose bytes are all there, in a buffer of any
form.
-/

namespace Sys2Proof.Machine

/-! ## Reads of bytes that are there -/

/-- Consecutive bytes that are there read as their sequence (R52). -/
theorem Memory.readBytes_of_byteAt {buf : Memory} {j n : Nat} {x : Nat → Byte}
    (h : ∀ t, t < n → buf.byteAt (j + t) = some (x t)) : buf.readBytes j n = some ((List.range n).map x) := by
  induction n generalizing j x with
  | zero => rfl
  | succ n ih =>
    have hhead : buf.byteAt j = some (x 0) := h 0 (Nat.succ_pos n)
    have htail : buf.readBytes (j + 1) n = some ((List.range n).map fun t => x (t + 1)) :=
      ih fun t ht => by rw [Nat.add_assoc, Nat.add_comm 1 t, h (t + 1) (Nat.succ_lt_succ ht)]
    rw [Memory.readBytes, hhead, htail, List.range_succ_eq_map, List.map_cons, List.map_map]
    rfl

theorem Memory.read_of_byteAt {buf : Memory} {j n : Nat} {x : Nat → Byte}
    (h : ∀ t, t < n → buf.byteAt (j + t) = some (x t)) : buf.read j n = some (leValue ((List.range n).map x)) := by
  rw [Memory.read, Memory.readBytes_of_byteAt h, Option.map_some]

/-- The word at four bytes that are there is their concatenation, the last one highest (R54). -/
theorem Memory.wordAt_of_byteAt {buf : Memory} {j : Nat} {x : Nat → Byte}
    (h : ∀ t, t < 4 → buf.byteAt (j + t) = some (x t)) : buf.wordAt j = (x 3 ++ x 2) ++ (x 1 ++ x 0) := by
  rw [Memory.wordAt, Memory.read_of_byteAt h, Option.getD_some]
  exact ofNat_leValue_four (x 0) (x 1) (x 2) (x 3)

/-! ## The block -/

section
variable {buf : Memory} {base : Nat} {x : Nat → Byte} (hx : ∀ t, t < 64 → buf.byteAt (base + t) = some (x t))
include hx

/-- The four bytes of word `j` of a block that is there. -/
theorem Memory.byteAt_word {j : Nat} (hj : j < 16) (t : Nat) (ht : t < 4) :
    buf.byteAt (base + 4 * j + t) = some (x (4 * j + t)) := by
  rw [Nat.add_assoc, hx _ (by omega)]

theorem Memory.firstBadWord_of_byteAt : buf.firstBadWord base = none := by
  simp only [Memory.firstBadWord, List.find?_eq_none, List.mem_map, List.mem_range]
  rintro _ ⟨j, hj, rfl⟩
  simp [Memory.read_of_byteAt (Memory.byteAt_word hx hj)]

/-- R121's byte-to-word map. -/
theorem getElem_blockWords_of_byteAt (j : Fin 16) : (blockWords buf base)[j] =
    .holds ((x (4 * j.val + 3) ++ x (4 * j.val + 2)) ++ (x (4 * j.val + 1) ++ x (4 * j.val))) := by
  have hword := Memory.wordAt_of_byteAt (Memory.byteAt_word hx j.isLt)
  simpa [blockWords] using hword

end

/-- Settles O16: the words written are the block's, and none of the 16 reads is out of range. -/
theorem loadbLoadsTheBlockLittleEndian : Obligations.LoadbLoadsTheBlockLittleEndian := by
  refine ⟨decodeSeq_loadb, fun s e buf blk q x hc hb hk hq hx => ?_⟩
  refine ⟨blockWords buf (64 * blk), getElem_blockWords_of_byteAt hx, ?_⟩
  have hperform : performLoadb s.params e = .ok { e.withW q with m := blockWords buf (64 * blk) } :=
    performLoadb_eq_ok.mpr ⟨blk, hk, buf, hb, q, Engine.readH_eq_ok.mpr hq, Memory.firstBadWord_of_byteAt hx, rfl⟩
  exact microOp_of_ok (op := .loadb) hc hperform rfl

end Sys2Proof.Machine
end

section
/-!
PROOF. The compression loop (spec/42_compression.md R131 to R144): the values a round is made of, each said once, and the
round itself for the four families.
-/

namespace Sys2Proof.Machine

/-! ## The rotation -/

/-- Settles O46: the spec's two shifts are the library's rotation, whose bits wrap at `n`. -/
theorem rotationMovesEveryBit : Obligations.RotationMovesEveryBit := by
  refine fun x n => ⟨fun h1 h31 => ⟨x.rotateLeft n, rotl32_eq x n h1 h31, fun t ht => ?_⟩, fun hn => ?_⟩
  · have hmod : n % 32 = n := Nat.mod_eq_of_lt (by omega)
    rw [BitVec.getLsbD_rotateLeft, hmod]
    rcases Nat.lt_or_ge t n with htn | htn
    · have hwrap : (t + 32 - n) % 32 = 32 - n + t := by omega
      simp [htn, hwrap]
    · have hshift : (t + 32 - n) % 32 = t - n := by omega
      simp [Nat.not_lt.mpr htn, hshift, ht]
  · exact if_neg (by omega)

/-! ## The tables -/

/-- A row of four rotation values answers its whole quarter (R131). -/
theorem shiftAmount_eq_row {i : RoundIndex} {quarter : Nat} {row : List Nat} (hi : i.toNat / 16 = quarter)
    (hrow : ∀ r, r < 4 → shiftValues.getD (4 * quarter + r) 0 = row.getD r 0) :
    shiftAmount i = row.getD (i.toNat % 4) 0 := by
  rw [shiftAmount, hi, hrow _ (Nat.mod_lt _ (by decide))]

/-- The smallest and the largest rotation value (R131, R260). -/
theorem shiftValues_range : ∀ n, n < 16 → 4 ≤ shiftValues.getD n 0 ∧ shiftValues.getD n 0 ≤ 23 := by decide

/-- Settles O47: the sixteen table values, row by row. -/
theorem rotationAmountsFollowTheQuarters : Obligations.RotationAmountsFollowTheQuarters := by
  intro i
  obtain ⟨hmin, hmax⟩ := shiftValues_range (4 * (i.toNat / 16) + i.toNat % 4) (by omega)
  refine ⟨hmin, hmax, fun h => ?_, fun h h' => ?_, fun h h' => ?_, fun h => ?_⟩
  · exact shiftAmount_eq_row (quarter := 0) (by omega) (by decide)
  · exact shiftAmount_eq_row (quarter := 1) (by omega) (by decide)
  · exact shiftAmount_eq_row (quarter := 2) (by omega) (by decide)
  · exact shiftAmount_eq_row (quarter := 3) (by omega) (by decide)

/-- Settles O54: the table has an entry for each of the 64 indexes, so the default of the lookup is never answered. -/
theorem roundConstantsAreTheTable : Obligations.RoundConstantsAreTheTable := by
  intro i
  have hi : i.toNat < constValues.length := i.isLt
  have hconst : roundConst i = constValues[i.toNat] := List.getD_eq_getElem _ _ hi
  rw [hconst]
  exact (List.getElem?_eq_getElem hi).symm

/-! ## The message index -/

section
variable {i : RoundIndex}

/-- g in each quarter (R139). -/
theorem msgIndex_f (h : i.toNat < 16) : (msgIndex i).val = i.toNat := by
  rw [msgIndex, if_pos h]
  exact Nat.mod_eq_of_lt h

theorem msgIndex_g (h : 16 ≤ i.toNat) (h' : i.toNat < 32) : (msgIndex i).val = (5 * i.toNat + 1) % 16 := by
  rw [msgIndex, if_neg (by omega), if_pos h', Fin.val_ofNat]

theorem msgIndex_h (h : 32 ≤ i.toNat) (h' : i.toNat < 48) : (msgIndex i).val = (3 * i.toNat + 5) % 16 := by
  rw [msgIndex, if_neg (by omega), if_neg (by omega), if_pos h', Fin.val_ofNat]

theorem msgIndex_i (h : 48 ≤ i.toNat) : (msgIndex i).val = (7 * i.toNat) % 16 := by
  rw [msgIndex, if_neg (by omega), if_neg (by omega), if_neg (by omega), Fin.val_ofNat]

end

/-- No two rounds of a quarter read the same word: each quarter multiplies the index by an odd number mod 16 (R139). -/
theorem msgIndex_inj_of_quarter {i i' : RoundIndex} (hq : i.toNat / 16 = i'.toNat / 16) (hg : msgIndex i = msgIndex i') :
    i = i' := by
  have hval : (msgIndex i).val = (msgIndex i').val := congrArg Fin.val hg
  refine BitVec.eq_of_toNat_eq ?_
  rcases roundInstr_cases i with ⟨h, -⟩ | ⟨h, h', -⟩ | ⟨h, h', -⟩ | ⟨h, -⟩
  · rw [msgIndex_f h, msgIndex_f (by omega)] at hval
    exact hval
  · rw [msgIndex_g h h', msgIndex_g (by omega) (by omega)] at hval
    omega
  · rw [msgIndex_h h h', msgIndex_h (by omega) (by omega)] at hval
    omega
  · rw [msgIndex_i h, msgIndex_i (by omega)] at hval
    omega

/-- The `n`-th round of a quarter (R73: `RI` is the quarter's two bits and the four of `n`). -/
def roundOfQuarter (quarter : Fin 4) (n : Fin 16) : RoundIndex := BitVec.ofNat 6 (16 * quarter.val + n.val)

theorem toNat_roundOfQuarter (quarter : Fin 4) (n : Fin 16) :
    (roundOfQuarter quarter n).toNat = 16 * quarter.val + n.val := by
  rw [roundOfQuarter, BitVec.toNat_ofNat]
  omega

/-- The 16 rounds of a quarter read different words, so they read all 16. -/
theorem msgIndex_roundOfQuarter_surjective (quarter : Fin 4) :
    Function.Surjective fun n => msgIndex (roundOfQuarter quarter n) := by
  refine Finite.injective_iff_surjective.mp fun n n' hg => ?_
  have hround : roundOfQuarter quarter n = roundOfQuarter quarter n' :=
    msgIndex_inj_of_quarter (by simp only [toNat_roundOfQuarter]; omega) hg
  have hnat := congrArg BitVec.toNat hround
  simp only [toNat_roundOfQuarter] at hnat
  omega

/-- Settles O48: the round of a quarter that reads a word is there by surjectivity, and the only one by injectivity. -/
theorem messageIndexTakesEveryWordOncePerQuarter : Obligations.MessageIndexTakesEveryWordOncePerQuarter := by
  refine ⟨fun i => ⟨msgIndex_f, msgIndex_g, msgIndex_h, msgIndex_i⟩, fun quarter g => ?_⟩
  obtain ⟨n, hn⟩ := msgIndex_roundOfQuarter_surjective quarter g
  have hquarter : (roundOfQuarter quarter n).toNat / 16 = quarter.val := by
    rw [toNat_roundOfQuarter]
    omega
  exact ⟨roundOfQuarter quarter n, ⟨hquarter, hn⟩, fun i' hq' hg' =>
    msgIndex_inj_of_quarter (hq'.trans hquarter.symm) (hg'.trans hn.symm)⟩

/-! ## The auxiliary functions -/

/-- Two words masked by a third and its complement: where the mask has a 1 the first one shows, else the second. -/
theorem getLsbD_mask_or (mask x y : Word) {t : Nat} (ht : t < 32) :
    ((mask &&& x) ||| (~~~mask &&& y)).getLsbD t = if mask.getLsbD t then x.getLsbD t else y.getLsbD t := by
  rw [BitVec.getLsbD_or, BitVec.getLsbD_and, BitVec.getLsbD_and, BitVec.getLsbD_not]
  cases mask.getLsbD t <;> simp [ht]

/-- Settles O49: F is masked by B, G by D; H and I are the bitwise operations themselves. -/
theorem auxiliaryFunctionsActBitByBit : Obligations.AuxiliaryFunctionsActBitByBit := by
  intro b c d t ht
  refine ⟨getLsbD_mask_or b c d ht, getLsbD_mask_or d b c ht, ?_, ?_⟩
  · rw [auxH, BitVec.getLsbD_xor, BitVec.getLsbD_xor, Bool.xor_assoc]
  · rw [auxI, BitVec.getLsbD_xor, BitVec.getLsbD_or, BitVec.getLsbD_not, decide_eq_true ht, Bool.true_and]

/-! ## The round -/

/-- The control word of round `i` as a number (R71, R72). -/
theorem enc_round : ∀ i : RoundIndex, enc 0x6#4 i = BitVec.ofNat 16 (0x6000 + i.toNat) := by decide

/-- The ROUND rows of R182: the next round's control word, and after round 63 that of ACCUM. -/
theorem nextRound_of_ne {i : RoundIndex} (h : i.toNat ≠ 63) : nextRound i = BitVec.ofNat 16 (0x6000 + i.toNat + 1) := by
  have hsucc : (i + 1).toNat = i.toNat + 1 := by bv_omega
  rw [nextRound, if_pos (by omega), enc_round, hsucc, Nat.add_assoc]

theorem nextRound_last {i : RoundIndex} (h : i.toNat = 63) : nextRound i = 0x7000#16 := by
  rw [nextRound, if_neg (by omega)]
  rfl

/-- A round whose message index and next control word are known: the four writes of R144, all from the old words `q`. -/
theorem exec_round_afterRound {i : Instr} {aux : Word → Word → Word → Word} {ri : RoundIndex} {s : State} {e : Engine}
    {q : Quad} {g : Fin 16} {x : Word} {next : SeqWord} (hp : performOf i = some (roundStep aux ri))
    (hn : ∀ e', nextSeq i e' = .ok (nextRound ri)) (hc : s.cur = some e) (hq : e.HoldsW q) (hm : e.m[g] = .holds x)
    (hg : g.val = (msgIndex ri).val) (hnext : nextRound ri = next) :
    exec i s = .next (s.setCur (e.afterRound q (roundSum aux ri x q) (shiftAmount ri) next)) := by
  obtain ⟨ha, hb, hcc, hd⟩ := hq
  obtain rfl : g = msgIndex ri := Fin.ext hg
  subst hnext
  exact exec_round hp hn hc ha hb hcc hd hm

/-- Settles O18: one lemma for the four families; each quarter has its message index and its next control word. -/
theorem roundsUpdateTheWorkingWordsTogether : Obligations.RoundsUpdateTheWorkingWordsTogether := by
  refine fun s e q i g x hc hq hm => ⟨fun h hg => ?_, fun h h' hg => ?_, fun h h' hg => ?_, fun h hg => ?_⟩
  · exact exec_round_afterRound (aux := auxF) rfl (fun _ => rfl) hc hq hm (hg.trans (msgIndex_f h).symm)
      (nextRound_of_ne (by omega))
  · exact exec_round_afterRound (aux := auxG) rfl (fun _ => rfl) hc hq hm (hg.trans (msgIndex_g h h').symm)
      (nextRound_of_ne (by omega))
  · exact exec_round_afterRound (aux := auxH) rfl (fun _ => rfl) hc hq hm (hg.trans (msgIndex_h h h').symm)
      (nextRound_of_ne (by omega))
  · refine exec_round_afterRound (aux := auxI) rfl (fun _ => rfl) hc hq hm (hg.trans (msgIndex_i h).symm) ?_
    split
    · next hlast => exact nextRound_last hlast
    · next hlast => exact nextRound_of_ne hlast

end Sys2Proof.Machine
end

section
/-!
PROOF. The state accumulator (spec/43_accumulator.md R160): ACCUM with every operand written, its sums, its counter and
the row of R182 that follows it.
-/

namespace Sys2Proof.Machine

/-- The counter after ACCUM, from its two cases: no finite width, and a width at which it wraps (R27, log 9). -/
theorem blkSucc_eq {p : Params} {blk k : Nat} (hunbounded : p.blkBits = none → k = blk + 1)
    (hbounded : ∀ n, p.blkBits = some n → k = (blk + 1) % 2 ^ n) : blkSucc p blk = k := by
  cases hbits : p.blkBits with
  | none => simp only [blkSucc, hbits, hunbounded hbits]
  | some n => simp only [blkSucc, hbits, hbounded n hbits]

/-- The ACCUM row of R182: another block if the buffer holds one at the counter, else the serializer. -/
theorem nextSeq_accum {e : Engine} {blk : Nat} {buf : Memory} (hk : e.blk = .holds blk) (hb : e.buf = .holds buf) :
    nextSeq .accum e = .ok (if 64 * blk < buf.len then 0x5000#16 else 0x8000#16) := by
  simp only [nextSeq, hk, hb, Engine.read_holds, Except.ok_bind]
  rfl

/-- ACCUM with its operands written completes (R160), and the next control word is tested on the new counter (R182). -/
theorem exec_accum {s : State} {e : Engine} {h w : Quad} {buf : Memory} {blk : Nat} (hc : s.cur = some e)
    (hh : e.HoldsH h) (hw : e.HoldsW w) (hb : e.buf = .holds buf) (hk : e.blk = .holds blk) :
    exec .accum s = .next (s.setCur { e.withH (h.add w) with
      blk := .holds (blkSucc s.params blk),
      seq := if 64 * blkSucc s.params blk < buf.len then 0x5000#16 else 0x8000#16 }) := by
  obtain ⟨hha, hhb, hhc, hhd⟩ := hh
  obtain ⟨ha, hb', hc', hd⟩ := hw
  have hperform : performAccum s.params e = .ok { e.withH (h.add w) with blk := .holds (blkSucc s.params blk) } :=
    performAccum_eq_ok.mpr ⟨h, w, blk, hha, hhb, hhc, hhd, ha, hb', hc', hd, hk, rfl⟩
  exact microOp_of_ok (op := .accum) hc hperform (nextSeq_accum rfl hb)

/-- Settles O19: the sum of two words is that of their values mod 2^32, and `k` is what `blkSucc` answers. -/
theorem accumAddsTheBlockAndAdvances : Obligations.AccumAddsTheBlockAndAdvances := by
  refine ⟨decodeSeq_accum, fun s e h w buf blk k hc hh hw hb hk hunbounded hbounded => ?_⟩
  rw [exec_accum hc hh hw hb hk, blkSucc_eq hunbounded hbounded]
  simp only [Engine.withH, Quad.add, BitVec.add_def]

end Sys2Proof.Machine
end

section
/-!
PROOF. The hex serializer (spec/44_serializer.md R170, R171): SERIAL with `HA..HD` written, its characters read through the
bytes of the digest.
-/

namespace Sys2Proof.Machine

/-! ## The bytes of the digest -/

/-- Byte `t` of a word is its bits 8t+7 : 8t (R52). -/
theorem getElem?_leBytes_word (w : Word) {t : Nat} (ht : t < 4) :
    (leBytes 4 w.toNat)[t]? = some (w.extractLsb' (8 * t) 8) := by
  have hbyte : BitVec.ofNat 8 (w.toNat / 256 ^ t) = w.extractLsb' (8 * t) 8 := by
    rw [BitVec.extractLsb', Nat.shiftRight_eq_div_pow, Nat.pow_mul]
  rw [getElem?_leBytes _ ht, hbyte]

/-- A field inside a field of a bit vector is a field of the bit vector. -/
theorem extractLsb'_within_extractLsb' {v : Nat} (x : BitVec v) (start : Nat) {i m n : Nat} (h : i + n ≤ m) :
    (x.extractLsb' start m).extractLsb' i n = x.extractLsb' (start + i) n := by
  ext t ht
  rw [BitVec.getElem_extractLsb', BitVec.getElem_extractLsb', BitVec.getLsbD_extractLsb', decide_eq_true (by omega),
    Bool.true_and, Nat.add_assoc]

/-- Word `j` of `HA..HD` fills bytes 4j to 4j + 3 of the digest (R170). -/
theorem digestBytes_split {q : Quad} {w : Word} {j : Nat} (hw : [q.a, q.b, q.c, q.d][j]? = some w) :
    ∃ pre post, digestBytes q = pre ++ (leBytes 4 w.toNat ++ post) ∧ pre.length = 4 * j := by
  match j, hw with
  | 0, rfl => exact ⟨[], _, rfl, rfl⟩
  | 1, rfl => exact ⟨leBytes 4 q.a.toNat, _, rfl, rfl⟩
  | 2, rfl => exact ⟨leBytes 4 q.a.toNat ++ leBytes 4 q.b.toNat, _, rfl, rfl⟩
  | 3, rfl => exact ⟨leBytes 4 q.a.toNat ++ leBytes 4 q.b.toNat ++ leBytes 4 q.c.toNat, [], rfl, rfl⟩

section
variable {q : Quad} {w : Word} {j t : Nat} (hw : [q.a, q.b, q.c, q.d][j]? = some w) (ht : t < 4)
include hw ht

/-- Digest byte 4j + t is bits 8t+7 : 8t of word `j` (R171). -/
theorem getD_digestBytes : (digestBytes q).getD (4 * j + t) 0 = w.extractLsb' (8 * t) 8 := by
  obtain ⟨pre, post, hsplit, hpre⟩ := digestBytes_split hw
  have hlen : t < (leBytes 4 w.toNat).length := by rwa [length_leBytes]
  rw [List.getD_eq_getElem?_getD, hsplit, ← hpre, List.getElem?_append_right (Nat.le_add_right _ _), Nat.add_sub_cancel_left,
    List.getElem?_append_left hlen, getElem?_leBytes_word w ht, Option.getD_some]

/-! ## The position map -/

/-- The two characters of digest byte 4j + t: its high nibble at the even position, its low nibble at the odd one (R171). -/
theorem digestChar_pair {k : Nat} (hk : k = 8 * j + 2 * t) :
    digestChar q k = hexChar (w.extractLsb' (8 * t + 4) 4) ∧ digestChar q (k + 1) = hexChar (w.extractLsb' (8 * t) 4) := by
  have hbyte := getD_digestBytes hw ht
  have heven : k / 2 = 4 * j + t := by omega
  have hodd : (k + 1) / 2 = 4 * j + t := by omega
  constructor
  · rw [digestChar, heven, hbyte, if_pos (by omega), extractLsb'_within_extractLsb' w _ (by decide)]
  · rw [digestChar, hodd, hbyte, if_neg (by omega), extractLsb'_within_extractLsb' w _ (by decide), Nat.add_zero]

/-- The same two characters as SERIAL stores them. -/
theorem getElem_digestChars_pair {k : Nat} (hk : k = 8 * j + 2 * t) (hlt : k + 1 < 32) :
    ((digestChars q).map Reg.holds)[k] = .holds (hexChar (w.extractLsb' (8 * t + 4) 4)) ∧
      ((digestChars q).map Reg.holds)[k + 1] = .holds (hexChar (w.extractLsb' (8 * t) 4)) := by
  obtain ⟨hhigh, hlow⟩ := digestChar_pair hw ht hk
  simp only [digestChars, Vector.getElem_map, Vector.getElem_ofFn, hhigh, hlow, and_self]

end

/-- Settles O20: one lemma for the four words, each at its own place in `DOUT`. -/
theorem serialWritesTheDigestByThePositionMap : Obligations.SerialWritesTheDigestByThePositionMap := by
  refine ⟨decodeSeq_serial, fun s e q hc hq => ⟨(digestChars q).map .holds, fun t ht => ?_, exec_serial hc hq⟩⟩
  obtain ⟨ha, ha'⟩ := getElem_digestChars_pair (q := q) (j := 0) rfl ht (k := 2 * t) (by omega) (by omega)
  obtain ⟨hb, hb'⟩ := getElem_digestChars_pair (q := q) (j := 1) rfl ht (k := 8 + 2 * t) (by omega) (by omega)
  obtain ⟨hcc, hcc'⟩ := getElem_digestChars_pair (q := q) (j := 2) rfl ht (k := 16 + 2 * t) (by omega) (by omega)
  obtain ⟨hd, hd'⟩ := getElem_digestChars_pair (q := q) (j := 3) rfl ht (k := 24 + 2 * t) (by omega) (by omega)
  exact ⟨ha, ha', hb, hb', hcc, hcc', hd, hd'⟩

end Sys2Proof.Machine
end

section
/-!
PROOF. The sequencer (spec/45_sequencer.md R180 to R187): what a core step runs, that a faulting instruction writes the
record alone, the micro-operations of a run, and that every engine comes to its core step.
-/

namespace Sys2Proof.Machine

/-! ## The core step -/

/-- Settles O5: the core step's decoding (R183) selects the instruction. -/
theorem coreStepRunsTheDecodedMicroOperation : Obligations.CoreStepRunsTheDecodedMicroOperation :=
  fun _ _ _ _ _ hmove hk hf hd => step_core_run hmove hk hf hd

/-- Settles O8: the test of the fault record comes before the decoding (R183). -/
theorem faultedEngineTakesNoCoreStep : Obligations.FaultedEngineTakesNoCoreStep :=
  fun _ _ _ _ hmove hk hf => step_core_faulted hmove hk hf

/-- No core step on an engine that exists (R183's NoStep, log 3). -/
theorem noStep_of_cur {s : State} {e : Engine} (hc : s.cur = some e) : noStep s = .next s := by
  simp only [noStep, hc]

/-- Settles O21: IDLE and DONE are both NoStep. -/
theorem idleAndDoneLeaveEverything : Obligations.IdleAndDoneLeaveEverything :=
  ⟨decodeSeq_idle, decodeSeq_done, fun _ _ hc => ⟨noStep_of_cur hc, noStep_of_cur hc⟩⟩

/-! ## A fault writes the record alone -/

/-- A fault not yet in the record becomes its last entry (R39, log 12). -/
theorem Engine.record_of_notMem {e : Engine} {f : CoreFault} (hf : f ∉ e.faults) :
    e.record f = { e with faults := e.faults ++ [f] } := by
  rw [Engine.record, if_neg hf]

/-- An instruction either takes a fault, which is then all it does, or leaves the record (R223). -/
theorem exec_takeFault_or_faults_eq {i : Instr} {s t : State} {e e' : Engine} (h : exec i s = .next t)
    (hc : s.cur = some e) (hc' : t.cur = some e') :
    (∃ f, e' = e.record f ∧ t = s.setCur e') ∨ e'.faults = e.faults := by
  obtain hfault | ⟨_, e1, w, hp, hok, -, rfl, -⟩ | ⟨-, rfl, -⟩ | ⟨msg, -, -, -, rfl, -⟩ | ⟨-, rfl, -⟩ | ⟨-, rfl, -⟩ :=
    exec_engine_cases h hc hc'
  · exact .inl hfault
  · exact .inr (perform_seq_faults hp hok).2
  · exact .inr rfl
  · exact .inr (e.load_faults msg)
  · exact .inr rfl
  · exact .inr rfl

/-- Settles O30: a new entry shows that the instruction took a fault, and that entry is the fault taken. -/
theorem faultingInstructionWritesNothingElse : Obligations.FaultingInstructionWritesNothingElse := by
  intro i s t e e' f h hc hc' hnew hold
  obtain ⟨g, rfl, rfl⟩ | hsame := exec_takeFault_or_faults_eq h hc hc'
  · obtain rfl : f = g := (Engine.mem_faults_record.mp hnew).resolve_left hold
    rw [Engine.record_of_notMem hold]
  · exact absurd (hsame ▸ hnew) hold

/-! ## The micro-operations of a run -/

/-- Place `r` of copy `k` in a list repeated. -/
theorem getElem?_flatten_replicate {α : Type} {l : List α} {n k r : Nat} (hk : k < n) (hr : r < l.length) :
    (List.replicate n l).flatten[l.length * k + r]? = l[r]? := by
  induction n generalizing k with
  | zero => omega
  | succ n ih =>
    rw [List.replicate_succ, List.flatten_cons]
    cases k with
    | zero => rw [Nat.mul_zero, Nat.zero_add, List.getElem?_append_left hr]
    | succ k =>
      rw [Nat.mul_succ, List.getElem?_append_right (by omega),
        show l.length * k + l.length + r - l.length = l.length * k + r by omega]
      exact ih (by omega)

@[simp] theorem length_blockOps : blockOps.length = 66 := by simp [blockOps, roundIndexes]

/-- A block is LOADB, then the 64 rounds in order, then ACCUM (R185). -/
theorem getElem?_blockOps_round (i : RoundIndex) : blockOps[1 + i.toNat]? = some (roundInstr i) := by
  have hi : i.toNat < 64 := i.isLt
  have hround : (roundIndexes.map roundInstr)[i.toNat]? = some (roundInstr i) := by
    simp [roundIndexes, hi]
  rw [blockOps, List.getElem?_append_left (by simp [roundIndexes]; omega), Nat.add_comm, List.singleton_append,
    List.getElem?_cons_succ, hround]

/-- The padding engine's part of a run (R185). -/
def padOps (len : Nat) : List Instr := [.init, .padm] ++ List.replicate (zeroCount len) .padz ++ [.aplen]

theorem runOps_eq (len : Nat) :
    runOps len = padOps len ++ (List.replicate (blockCount len) blockOps).flatten ++ [.serial] := rfl

@[simp] theorem length_padOps (len : Nat) : (padOps len).length = 3 + zeroCount len := by
  simp [padOps]
  omega

theorem length_blocks (n : Nat) : (List.replicate n blockOps).flatten.length = 66 * n := by
  simp [Nat.mul_comm]

/-- R185's count of the list: N(L) = 4 + z + 66·nb. -/
theorem length_runOps (len : Nat) : (runOps len).length = stepCount len := by
  simp only [runOps_eq, List.length_append, length_padOps, length_blocks, List.length_singleton, stepCount]
  omega

theorem getElem?_runOps_pad {len n : Nat} (hn : n < 3 + zeroCount len) : (runOps len)[n]? = (padOps len)[n]? := by
  rw [runOps_eq, List.append_assoc, List.getElem?_append_left (length_padOps len ▸ hn)]

/-- Operation `r` of block `k` stands after the padding engine's operations and the blocks before (R185). -/
theorem getElem?_runOps_block {len k r : Nat} (hk : k < blockCount len) (hr : r < 66) :
    (runOps len)[3 + zeroCount len + 66 * k + r]? = blockOps[r]? := by
  have hplace : 3 + zeroCount len + 66 * k + r - (padOps len).length = 66 * k + r := by
    rw [length_padOps]
    omega
  have hblock := getElem?_flatten_replicate hk (length_blockOps ▸ hr)
  rw [length_blockOps] at hblock
  rw [runOps_eq, List.append_assoc, List.getElem?_append_right (by rw [length_padOps]; omega), hplace,
    List.getElem?_append_left (by rw [length_blocks]; omega), hblock]

/-- The operations listed (R185) are those of the phases, each at its phase's place. -/
theorem getElem?_runOps_index {len : Nat} {ph : Phase} (hr : ph.inRun len) (hd : ph ≠ .done) :
    (runOps len)[ph.index len]? = some ph.op := by
  cases ph with
  | init => rfl
  | padm => rfl
  | padz z =>
    simp only [Phase.inRun] at hr
    rw [Phase.index, getElem?_runOps_pad (by omega), Nat.add_comm]
    simp [padOps, Phase.op, List.getElem?_append, hr]
  | aplen =>
    rw [Phase.index, getElem?_runOps_pad (by omega), Nat.add_comm]
    simp [padOps, Phase.op]
  | loadb k => exact getElem?_runOps_block (r := 0) hr (by decide)
  | round k i =>
    have hi : i.toNat < 64 := i.isLt
    rw [Phase.index, Nat.add_assoc _ 1, getElem?_runOps_block hr (by omega), getElem?_blockOps_round, Phase.op]
  | accum k =>
    rw [Phase.index, getElem?_runOps_block hr (by decide)]
    rfl
  | serial =>
    have hplace : (padOps len ++ (List.replicate (blockCount len) blockOps).flatten).length =
        3 + zeroCount len + 66 * blockCount len := by
      rw [List.length_append, length_padOps, length_blocks]
    rw [Phase.index, runOps_eq, ← hplace, List.getElem?_concat_length, Phase.op]
  | done => exact absurd rfl hd

/-- DONE is the one phase N(L) core steps after INIT's. -/
theorem Phase.eq_done_of_index {len : Nat} {ph : Phase} (hi : ph.index len = stepCount len) (hr : ph.inRun len) :
    ph = .done := by
  by_contra hd
  have hlt : ph.index len < (runOps len).length := (List.getElem?_eq_some_iff.mp (getElem?_runOps_index hr hd)).1
  rw [hi, length_runOps] at hlt
  exact lt_irrefl _ hlt

/-- An operation that a block has once, and nothing else of the run has, occurs once a block (R185). -/
theorem count_runOps {op : Instr} {len : Nat} (hblock : blockOps.count op = 1) (hpad : op ∉ padOps len)
    (hserial : op ∉ [Instr.serial]) : (runOps len).count op = blockCount len := by
  rw [runOps_eq, List.count_append, List.count_append, List.count_eq_zero.mpr hpad, List.count_eq_zero.mpr hserial]
  simp [List.count_flatten, hblock]

/-- DONE without a fault is the end of a run (R186). -/
theorem Engine.ended_of_decodeSeq_done {e : Engine} (hd : decodeSeq e.seq = .ok .done) (hf : e.faults = []) :
    e.ended = true := by
  have hseq : enc 0x9#4 0#6 = e.seq := Encoded.seq.inj (wellFormed_encode_of_decodeSeq hd).2
  simp [Engine.ended, ← hseq, hf]

/-- `n` core steps after INIT's the engine is in the phase with index `n`, without a fault (R185, R254). -/
theorem run_phases_from_init {s : State} {k n : Nat} {rest : List Event} {e : Engine} {msg : List Byte}
    (hfits : s.params.fits = true) (hadmits : s.params.admits msg.length = true)
    (ha : s.agenda = List.replicate n (.core k) ++ rest) (hk : s.engines[k]? = some e) (hf : e.faults = [])
    (h : e.InPhase msg .init) (hn : n ≤ stepCount msg.length) :
    ∃ t e' ph, Host.Core.run Sys2Proof.core n s = .next t ∧ t.agenda = rest ∧ t.engines[k]? = some e' ∧ e'.faults = [] ∧
      e'.InPhase msg ph ∧ ph.index msg.length = n := by
  have hinit : Phase.init.index msg.length + n = n := Nat.zero_add n
  obtain ⟨t, e', ph, hrun, ht, hk', hf', h', hindex⟩ := run_phases ha hk hf h (hinit.trans_le hn)
    fun j hj _ => fits_blkSucc hfits hadmits hj
  exact ⟨t, e', ph, hrun, ht, hk', hf', h', hindex.trans hinit⟩

/-- Settles O41: the `n`-th core step finds the engine in the phase with that index, whose operation is the `n`-th listed;
the phase with index N(L) is DONE. -/
theorem runReachesDoneAfterExactlyItsStepCount : Obligations.RunReachesDoneAfterExactlyItsStepCount := by
  intro s k e msg rest hfits hadmits hk hf hseq hb ha
  have hinit : e.InPhase msg .init := ⟨trivial, hseq ▸ decodeSeq_init, hb⟩
  refine ⟨length_runOps _, count_runOps (by decide) (by simp [padOps]) (by decide),
    count_runOps (by decide) (by simp [padOps]) (by decide), fun n op hop => ?_, ?_⟩
  · have hn : n < stepCount msg.length := length_runOps msg.length ▸ (List.getElem?_eq_some_iff.mp hop).1
    rw [← Nat.add_sub_of_le hn.le, ← List.replicate_append_replicate, List.append_assoc] at ha
    obtain ⟨t, e', ph, hrun, -, hk', hf', h, rfl⟩ := run_phases_from_init hfits hadmits ha hk hf hinit hn.le
    have hd : ph ≠ .done := by
      rintro rfl
      exact lt_irrefl _ hn
    obtain rfl : ph.op = op := Option.some.inj ((getElem?_runOps_index h.1 hd).symm.trans hop)
    exact ⟨t, e', hrun, hk', hf', h.2.1⟩
  · obtain ⟨t, e', ph, hrun, ht, hk', hf', ⟨hr, hdecode, -⟩, hindex⟩ :=
      run_phases_from_init hfits hadmits ha hk hf hinit le_rfl
    obtain rfl : ph = .done := Phase.eq_done_of_index hindex hr
    exact ⟨t, e', hrun, ht, hk', Engine.ended_of_decodeSeq_done hdecode hf'⟩

/-! ## Every engine comes to its core step -/

/-- A core step by turn is the same core step placed on the agenda. -/
theorem step_of_coreMove_eq_placed {s : State} {k : Nat} {rest : List Event} (h : s.CoreMove k rest) :
    step s = step { s with agenda := .core k :: rest } := by
  rw [step_of_coreMove h, step_of_coreMove (.inl rfl)]
  rfl

theorem State.turn_lt {s : State} (h : 0 < s.engines.length) : s.turn < s.engines.length := by
  unfold State.turn
  split <;> omega

/-- The selection counts around the machine (log 5). -/
theorem State.turn_of_sel_lt {s : State} (h : s.sel < s.engines.length) : s.turn = (s.sel + 1) % s.engines.length := by
  unfold State.turn
  split
  · rw [Nat.mod_eq_of_lt ‹_›]
  · rw [show s.sel + 1 = s.engines.length by omega, Nat.mod_self]

/-- With nothing on the agenda the engine next in turn is selected, and the agenda stays empty (log 5). -/
theorem step_turn {s : State} (ha : s.agenda = []) (hpos : 0 < s.engines.length) :
    ∃ t, step s = .next t ∧ t.agenda = [] ∧ t.sel = s.turn ∧ t.engines.length = s.engines.length := by
  have hmove : s.CoreMove s.turn [] := .inr ⟨ha, rfl, rfl⟩
  obtain ⟨t, hstep, hempty, -, hlen⟩ := step_next_of_event (s := { s with agenda := [.core s.turn] }) rfl
    (State.turn_lt hpos) nofun
  rw [← step_of_coreMove_eq_placed hmove] at hstep
  obtain ⟨-, -, hsel, -⟩ := step_next_machine hstep
  exact ⟨t, hstep, hempty, hsel.trans (State.mover_nil ha), hlen⟩

/-- After `n` core steps by turn the turn is `n` engines further on, counted around the machine (log 5). -/
theorem run_turns (n : Nat) {s : State} (ha : s.agenda = []) (hpos : 0 < s.engines.length) :
    ∃ t, Host.Core.run Sys2Proof.core n s = .next t ∧ t.agenda = [] ∧ t.turn = (s.turn + n) % s.engines.length ∧
      t.engines.length = s.engines.length := by
  induction n generalizing s with
  | zero => exact ⟨s, rfl, ha, (Nat.mod_eq_of_lt (State.turn_lt hpos)).symm, rfl⟩
  | succ n ih =>
    obtain ⟨u, hstep, hempty, hsel, hlen⟩ := step_turn ha hpos
    obtain ⟨t, hrun, ht, hturn, hlen'⟩ := ih hempty (hlen ▸ hpos)
    refine ⟨t, (run_succ hstep).trans hrun, ht, ?_, hlen'.trans hlen⟩
    have hsel_lt : u.sel < u.engines.length := by rw [hsel, hlen]; exact State.turn_lt hpos
    rw [hturn, State.turn_of_sel_lt hsel_lt, hlen, hsel, Nat.mod_add_mod, Nat.add_right_comm, Nat.add_assoc]

/-- With nothing on the agenda every engine is next in turn after fewer steps than there are engines (R187, log 5). -/
theorem exists_run_turn_eq {s : State} {k : Nat} (ha : s.agenda = []) (hk : k < s.engines.length) :
    ∃ n t, n < s.engines.length ∧ Host.Core.run Sys2Proof.core n s = .next t ∧ t.agenda = [] ∧ t.turn = k ∧
      t.engines.length = s.engines.length := by
  have hpos : 0 < s.engines.length := Nat.zero_lt_of_lt hk
  have hturn : s.turn < s.engines.length := State.turn_lt hpos
  obtain ⟨t, hrun, ht, hturn', hlen⟩ := run_turns ((k + (s.engines.length - s.turn)) % s.engines.length) ha hpos
  refine ⟨_, t, Nat.mod_lt _ hpos, hrun, ht, ?_, hlen⟩
  rw [hturn', Nat.add_mod_mod, show s.turn + (k + (s.engines.length - s.turn)) = k + s.engines.length by omega,
    Nat.add_mod_right, Nat.mod_eq_of_lt hk]

/-- Settles O44: the step after the one that makes engine `k` next in turn selects it. -/
theorem everyEngineTakesItsTurn : Obligations.EveryEngineTakesItsTurn := by
  intro s k ha _ hk
  obtain ⟨n, t, hn, hrun, hempty, rfl, hlen⟩ := exists_run_turn_eq ha hk
  obtain ⟨u, hstep, -, hsel, -⟩ := step_turn hempty (hlen ▸ Nat.zero_lt_of_lt hk)
  exact ⟨n + 1, u, n.succ_pos, hn, (run_add hrun).trans (run_succ hstep), hsel⟩

/-- Engine `k` comes to its core step before `bound` steps. -/
def State.ComesToCoreStep (s : State) (k bound : Nat) : Prop :=
  ∃ n t rest, n < bound ∧ Host.Core.run Sys2Proof.core n s = .next t ∧ t.CoreMove k rest

theorem State.ComesToCoreStep.of_step {s t : State} {k bound : Nat} (hstep : step s = .next t)
    (h : t.ComesToCoreStep k bound) : s.ComesToCoreStep k (bound + 1) := by
  obtain ⟨n, u, rest, hn, hrun, hmove⟩ := h
  exact ⟨n + 1, u, rest, Nat.succ_lt_succ hn, (run_succ hstep).trans hrun, hmove⟩

/-- In a round of core steps every engine comes to its own, whatever stands behind the round (R187, log 17). -/
theorem State.comesToCoreStep_of_coreRound {s : State} {k : Nat} {rest : List Event} (hk : k < s.engines.length)
    (ha : s.agenda = s.coreRound ++ rest) : s.ComesToCoreStep k s.engines.length := by
  obtain ⟨after, hround⟩ := State.coreRound_split hk
  rw [hround, List.append_assoc] at ha
  have hcore : ∀ ev ∈ (List.range k).map Event.core, ∃ j, j < k ∧ ev = .core j := by
    simp [eq_comm]
  obtain ⟨t, hrun, ht, -⟩ := run_events _ ha
    (by intro ev hev; obtain ⟨j, hj, rfl⟩ := hcore ev hev; exact hj.trans hk)
    (by intro ev hev; obtain ⟨j, -, rfl⟩ := hcore ev hev; exact nofun)
  rw [List.length_map, List.length_range] at hrun
  exact ⟨k, t, after ++ rest, hk, hrun, .inl ht⟩

/-- The bound for every agenda, by the moves on it: a move is used up, but for a WAIT that reads DONE = 0, and that puts a
round of core steps before everything else (R187). -/
theorem State.comesToCoreStep (agenda : List Event) {s : State} {k : Nat} (ha : s.agenda = agenda)
    (hk : k < s.engines.length) (hev : ∀ ev ∈ agenda, ev.target < s.engines.length) :
    s.ComesToCoreStep k (agenda.length + s.engines.length) := by
  induction agenda generalizing s with
  | nil =>
    obtain ⟨n, t, hn, hrun, hempty, hturn, -⟩ := exists_run_turn_eq ha hk
    exact ⟨n, t, [], by simpa using hn, hrun, .inr ⟨hempty, hturn.symm, rfl⟩⟩
  | cons ev rest ih =>
    obtain ⟨htarget, hrest⟩ := List.forall_mem_cons.mp hev
    have usedUp : ∀ t, step s = .next t → t.agenda = rest → t.engines.length = s.engines.length →
        s.ComesToCoreStep k ((ev :: rest).length + s.engines.length) := by
      intro t hstep ht hlen
      rw [List.length_cons, Nat.add_right_comm, ← hlen]
      exact .of_step hstep (ih ht (hlen ▸ hk) (hlen ▸ hrest))
    by_cases hwait : ∃ j, ev = .wait j
    · obtain ⟨j, rfl⟩ := hwait
      have hpoll := step_wait ha (List.getElem?_eq_getElem htarget)
      by_cases hdone : isDone (s.engines[j]'htarget).seq = true
      · exact usedUp _ hpoll (if_pos hdone) rfl
      · obtain ⟨n, t, rest', hn, hrun, hmove⟩ :=
          State.ComesToCoreStep.of_step hpoll (State.comesToCoreStep_of_coreRound hk (if_neg hdone))
        exact ⟨n, t, rest', hn.trans_le (by simp), hrun, hmove⟩
    · obtain ⟨t, hstep, ht, -, hlen⟩ := step_next_of_event ha htarget fun j hj => hwait ⟨j, hj⟩
      exact usedUp t hstep ht hlen

/-- Settles O55, by induction on the moves of the agenda. -/
theorem everyEngineComesToItsCoreStepWhateverTheAgenda :
    Obligations.EveryEngineComesToItsCoreStepWhateverTheAgenda :=
  fun _ _ hk hev => State.comesToCoreStep _ rfl hk hev

end Sys2Proof.Machine
end

section
/-!
PROOF. The host interface (spec/46_host_interface.md R200 to R207): what each command does in the states its rule tells apart,
that a host that keeps its duties sees no fault, and the digest as the host computes it.
-/

namespace Sys2Proof.Machine

/-! ## START -/

/-- Admission as R205 says it. -/
theorem Params.admits_iff {p : Params} {len : Nat} :
    p.admits len = true ↔ ∀ n, p.maxMsgBytes = some n → len ≤ n := by
  refine ⟨fun h n => Params.le_of_admits h, fun h => ?_⟩
  unfold Params.admits
  split
  · rfl
  · exact decide_eq_true (h _ ‹_›)

theorem exec_start_admitted {s : State} {e : Engine} {msg : List Byte} (hc : s.cur = some e)
    (ha : s.params.admits msg.length = true) (hb : busy e.seq = false) :
    exec (.start msg) s = .next (s.setCur (e.load msg)) := by
  simp [exec, execStart, hc, ha, hb]

theorem exec_start_busy {s : State} {e : Engine} {msg : List Byte} (hc : s.cur = some e)
    (ha : s.params.admits msg.length = true) (hb : busy e.seq = true) :
    exec (.start msg) s = .next (s.setCur (e.record (.startWhileBusy e.seq 0x01))) := by
  simp [exec, execStart, hc, ha, hb, takeFault_of_cur hc]

theorem exec_start_notAdmitted {s : State} {e : Engine} {msg : List Byte} (hc : s.cur = some e)
    (ha : s.params.admits msg.length = false) : exec (.start msg) s = .next s := by
  simp [exec, execStart, hc, ha]

/-- Settles O23: the admission test, then the BUSY test (R224); the buffer loaded is the message laid out from 0. -/
theorem startLoadsTheMessage : Obligations.StartLoadsTheMessage := by
  intro s e msg hc
  refine ⟨fun hle => ?_, fun n hn hlt => ?_⟩
  · have ha : s.params.admits msg.length = true := Params.admits_iff.mpr hle
    refine ⟨fun hop => ?_, fun hidle hdone => exec_start_busy hc ha (busy_iff.mpr ⟨hidle, hdone⟩)⟩
    have hb : busy e.seq = false := by
      rw [Bool.eq_false_iff, Ne, busy_iff]
      exact fun ⟨hidle, hdone⟩ => hop.elim hidle hdone
    exact ⟨Memory.ofBytes msg, Memory.byteAt_ofBytes msg, Memory.len_ofBytes msg, Memory.wf_ofBytes msg,
      exec_start_admitted hc ha hb⟩
  · refine exec_start_notAdmitted hc (Bool.eq_false_iff.mpr fun ha => ?_)
    exact absurd (Params.le_of_admits ha hn) (Nat.not_le.mpr hlt)

/-! ## RDSTAT and the reserved codes -/

/-- The three values of `STATUS` (R35, R201). -/
theorem statusOf_eq (w : SeqWord) :
    statusOf w = if opField w = 0x0#4 then 0x00#8 else if opField w = 0x9#4 then 0x02#8 else 0x01#8 := by
  by_cases hidle : opField w = 0x0#4
  · simp [statusOf, isDone, busy, hidle]
  · by_cases hdone : opField w = 0x9#4
    · simp [statusOf, isDone, busy, hdone]
    · have hnotDone : isDone w = false := Bool.eq_false_iff.mpr fun h => hdone (isDone_iff.mp h)
      simp [statusOf, hnotDone, busy_iff.mpr ⟨hidle, hdone⟩, hidle, hdone]

/-- Settles O24: the answer is `STATUS`. -/
theorem rdstatAnswersTheStatus : Obligations.RdstatAnswersTheStatus :=
  fun _ e hc => ⟨statusOf e.seq, exec_rdstat hc, statusOf_eq e.seq⟩

/-- Settles O7: the three codes excluded are all that decode. -/
theorem reservedHostCodeRaisesIllegalHostCmd : Obligations.ReservedHostCodeRaisesIllegalHostCmd :=
  fun _ _ _ _ _ _ ha hk h1 h2 h3 => step_host_illegal ha hk (decodeHost_reserved h1 h2 h3)

/-! ## RDDIG -/

theorem Engine.holdsDout_iff {e : Engine} {chars : Vector Byte 32} :
    e.HoldsDout chars ↔ ∀ n : Fin 32, e.dout[n] = .holds chars[n] := by
  refine ⟨fun h n => ?_, fun h => Vector.ext fun n hn => ?_⟩
  · rw [Engine.HoldsDout] at h
    simp [h]
  · simpa using h ⟨n, hn⟩

theorem Engine.firstUnwrittenChar_eq_none {e : Engine} {chars : Vector Byte 32} (h : e.HoldsDout chars) :
    e.firstUnwrittenChar = none := by
  refine List.find?_eq_none.mpr fun n _ => ?_
  rw [Engine.holdsDout_iff.mp h n]
  exact Bool.false_ne_true

theorem Engine.doutChars_eq {e : Engine} {chars : Vector Byte 32} (h : e.HoldsDout chars) : e.doutChars = chars := by
  refine Vector.ext fun n hn => ?_
  rw [Engine.doutChars, Vector.getElem_ofFn, Engine.holdsDout_iff.mp h ⟨n, hn⟩]
  rfl

/-- RDDIG in DONE with `DOUT` written (R202). -/
theorem exec_rddig_done {s : State} {e : Engine} {chars : Vector Byte 32} (hc : s.cur = some e)
    (hd : isDone e.seq = true) (h : e.HoldsDout chars) : exec .rddig s = .next { s with reply := .digest chars } := by
  simp only [exec, execRddig, hc, hd, if_true, Engine.firstUnwrittenChar_eq_none h, Engine.doutChars_eq h]

theorem exec_rddig_early {s : State} {e : Engine} (hc : s.cur = some e) (hd : isDone e.seq = false) :
    exec .rddig s = .next (s.setCur (e.record (.earlyDigestRead e.seq 0x03))) := by
  simp [exec, execRddig, hc, hd, takeFault_of_cur hc]

/-- Settles O25: the test of `SEQ`, then the characters, none of which is unwritten. -/
theorem rddigAnswersTheDigestOnlyInDone : Obligations.RddigAnswersTheDigestOnlyInDone := by
  intro s e hc
  refine ⟨fun chars hop hdout => exec_rddig_done hc (isDone_iff.mpr hop) (Engine.holdsDout_iff.mpr hdout), fun hop => ?_⟩
  exact exec_rddig_early hc (Bool.eq_false_iff.mpr fun hd => hop (isDone_iff.mp hd))

/-! ## The host's duties -/

/-- A host command that breaks no duty (R204). -/
theorem State.dutyKept_host {s : State} {k : Nat} {code : Byte} {payload : List Byte} {rest : List Event} {e : Engine}
    (h : s.dutyKept = true) (ha : s.agenda = .host k code payload :: rest) (hk : s.engines[k]? = some e) :
    (code = 0x01#8 ∧ busy e.seq = false) ∨ code = 0x02#8 ∨ (code = 0x03#8 ∧ isDone e.seq = true) := by
  simpa [State.dutyKept, ha, hk, or_assoc] using h

/-- Of the micro-operations' words, `STATUS.DONE` singles out DONE's (R35). -/
theorem isDone_iff_of_decodeSeq {w : SeqWord} {i : Instr} (h : decodeSeq w = .ok i) : isDone w = true ↔ i = .done := by
  have hw : encode i = .seq w := (wellFormed_encode_of_decodeSeq h).2
  cases i <;> simp only [encode, Encoded.seq.injEq, reduceCtorEq] at hw <;> subst hw <;> simp [isDone_iff]

/-- With the invariant, an engine in DONE holds a digest (R254). -/
theorem Engine.Inv.holdsDout {p : Params} {e : Engine} (h : e.Inv p) (hd : isDone e.seq = true) :
    ∃ chars, e.HoldsDout chars := by
  obtain ⟨-, op, hdecode, hreg⟩ := h
  obtain rfl : op = .done := (isDone_iff_of_decodeSeq hdecode).mp hd
  obtain ⟨hop, -⟩ | ⟨msg, -, -, hdout⟩ := hreg
  · cases hop
  · exact ⟨md5 msg, hdout⟩

/-- With the invariant a core step raises no fault: IDLE waits, and every phase of a computation has its operands. -/
theorem step_core_faults_eq {s t : State} {k : Nat} {rest : List Event} {e e' : Engine} (hfits : s.params.fits = true)
    (hm : s.CoreMove k rest) (hf : e.faults = []) (h : step s = .next t) (hc : (s.take k rest).cur = some e)
    (hc' : t.cur = some e') (he : e.Inv s.params) : e'.faults = e.faults := by
  obtain hidle | ⟨msg, ph, ha, hph⟩ := he.idle_or_inPhase
  · rw [step_core_run hm hc hf hidle] at h
    obtain ⟨-, rfl⟩ := noStep_next h
    obtain rfl : e = e' := Option.some.inj (hc.symm.trans hc')
    rfl
  · have hblk : ∀ j, ph = .accum j → blkSucc s.params j = j + 1 := by
      rintro j rfl
      exact fits_blkSucc hfits ha hph.1
    obtain ⟨e1, hnext, hf1, -⟩ := step_phase hm hc hf hblk hph
    obtain rfl : (s.take k rest).setCur e1 = t := Host.Outcome.next.inj (hnext.symm.trans h)
    obtain rfl : e1 = e' := Option.some.inj ((State.cur_setCur hc e1).symm.trans hc')
    rw [hf1, hf]

/-- START of an engine that is not BUSY raises no fault, whether the message is admitted or not (R200). -/
theorem exec_start_faults_eq {s t : State} {e e' : Engine} {msg : List Byte} (h : exec (.start msg) s = .next t)
    (hc : s.cur = some e) (hc' : t.cur = some e') (hb : busy e.seq = false) : e'.faults = e.faults := by
  cases ha : s.params.admits msg.length with
  | false =>
    rw [exec_start_notAdmitted hc ha] at h
    obtain rfl := Host.Outcome.next.inj h
    obtain rfl : e = e' := Option.some.inj (hc.symm.trans hc')
    rfl
  | true =>
    rw [exec_start_admitted hc ha hb] at h
    obtain rfl := Host.Outcome.next.inj h
    obtain rfl : e.load msg = e' := Option.some.inj ((State.cur_setCur hc _).symm.trans hc')
    rfl

/-- RDDIG of an engine in DONE that has the invariant raises no fault (R202). -/
theorem exec_rddig_faults_eq {s t : State} {e e' : Engine} (h : exec .rddig s = .next t) (hc : s.cur = some e)
    (hc' : t.cur = some e') (hd : isDone e.seq = true) (he : e.Inv s.params) : e'.faults = e.faults := by
  obtain ⟨chars, hdout⟩ := he.holdsDout hd
  rw [exec_rddig_done hc hd hdout] at h
  obtain rfl := Host.Outcome.next.inj h
  obtain rfl : e = e' := Option.some.inj (hc.symm.trans hc')
  rfl

/-- Settles O38: the faults of a core step are shut out by the invariant, those of a host command by the duty; a reset
empties the record. -/
theorem noFaultWhileTheHostKeepsItsDuties : Obligations.NoFaultWhileTheHostKeepsItsDuties := by
  rintro s t k e e' ⟨hfits, -, hinv⟩ hduty h hk hk' f hfault
  have he : e.Inv s.params := hinv e (List.mem_of_getElem? hk)
  suffices hsame : e' = Engine.reset ∨ e'.faults = e.faults by
    obtain rfl | hsame := hsame
    · cases hfault
    · exact hsame ▸ hfault
  obtain rfl | ⟨g, rfl, ⟨-, ⟨x, hx⟩, -⟩ | ⟨code, payload, rest, ha, ⟨x, hx⟩, -⟩⟩ | ⟨rest, i, hm, hf, -, -, hc, hc'⟩ |
    ⟨code, payload, rest, i, ha, hd, hx, hc, hc'⟩ | ⟨rest, -, rfl⟩ := step_engine_cases h hk hk'
  · exact .inr rfl
  · obtain ⟨-, op, hop, -⟩ := he
    cases hop.symm.trans hx
  · obtain ⟨rfl, -⟩ | rfl | ⟨rfl, -⟩ := State.dutyKept_host hduty ha hk <;> cases hx
  · exact .inr (step_core_faults_eq hfits hm hf h hc hc' he)
  · right
    obtain ⟨rfl, hb⟩ | rfl | ⟨rfl, hdone⟩ := State.dutyKept_host hduty ha hk <;> cases hd
    · exact exec_start_faults_eq hx hc hc' hb
    · rw [(execRdstat_frame hx hc hc').1]
    · exact exec_rddig_faults_eq (s := s.takeHost k rest) hx hc hc' hdone he
  · exact .inl rfl

/-! ## A computation among other moves -/

/-- Engine `k` is `n` core steps into computing the digest of the admitted message `msg`, without a fault (R185). -/
def State.Reached (s : State) (k : Nat) (msg : List Byte) (n : Nat) : Prop :=
  s.params.fits = true ∧ s.params.admits msg.length = true ∧
    ∃ e ph, s.engines[k]? = some e ∧ e.faults = [] ∧ e.InPhase msg ph ∧ ph.index msg.length = n

/-- An engine at INIT with the message in its buffer has the whole computation before it. -/
theorem State.reached_zero {s : State} {k : Nat} {msg : List Byte} {e : Engine} (hfits : s.params.fits = true)
    (hadmits : s.params.admits msg.length = true) (hk : s.engines[k]? = some e) (hf : e.faults = [])
    (hseq : e.seq = enc 0x1#4 0#6) (hb : e.buf = .holds (Memory.ofBytes msg)) : s.Reached k msg 0 :=
  ⟨hfits, hadmits, e, .init, hk, hf, ⟨trivial, hseq ▸ decodeSeq_init, hb⟩, rfl⟩

theorem State.Reached.exists_engine {s : State} {k n : Nat} {msg : List Byte} (h : s.Reached k msg n) :
    ∃ e, s.engines[k]? = some e := by
  obtain ⟨-, -, e, -, hk, -⟩ := h
  exact ⟨e, hk⟩

/-- What does not change the engine does not change how far it is. -/
theorem State.Reached.congr {s t : State} {k n : Nat} {msg : List Byte} (h : s.Reached k msg n)
    (hparams : t.params = s.params) (hk : t.engines[k]? = s.engines[k]?) : t.Reached k msg n := by
  unfold State.Reached
  rw [hparams, hk]
  exact h

/-- DONE is the one phase whose micro-operation is DONE. -/
theorem Phase.eq_done_of_op {ph : Phase} (h : ph.op = .done) : ph = .done := by
  cases ph with
  | done => rfl
  | round k i => obtain ⟨-, hi⟩ | ⟨-, -, hi⟩ | ⟨-, -, hi⟩ | ⟨-, hi⟩ := roundInstr_cases i <;> cases hi.symm.trans h
  | _ => cases h

/-- `STATUS.DONE` stays 0 until N(L) core steps are taken (R35, R185). -/
theorem State.Reached.isDone_eq_false {s : State} {k n : Nat} {msg : List Byte} {e : Engine} (h : s.Reached k msg n)
    (hk : s.engines[k]? = some e) (hn : n < stepCount msg.length) : isDone e.seq = false := by
  obtain ⟨-, -, e', ph, hk', -, ⟨-, hdecode, -⟩, rfl⟩ := h
  obtain rfl : e' = e := Option.some.inj (hk'.symm.trans hk)
  refine Bool.eq_false_iff.mpr fun hd => ?_
  obtain rfl : ph = .done := Phase.eq_done_of_op ((isDone_iff_of_decodeSeq hdecode).mp hd)
  exact lt_irrefl _ hn

/-- N(L) core steps on, the run is at its end and the digest in `DOUT` (R185, R186). -/
theorem State.Reached.digest {s : State} {k : Nat} {msg : List Byte} (h : s.Reached k msg (stepCount msg.length)) :
    ∃ e, s.engines[k]? = some e ∧ e.ended = true ∧ isDone e.seq = true ∧ e.HoldsDout (md5 msg) := by
  obtain ⟨-, -, e, ph, hk, hf, ⟨hrun, hdecode, hregs⟩, hindex⟩ := h
  obtain rfl : ph = .done := Phase.eq_done_of_index hindex hrun
  exact ⟨e, hk, Engine.ended_of_decodeSeq_done hdecode hf, (isDone_iff_of_decodeSeq hdecode).mpr rfl, hregs.2⟩

/-- A core step of the engine takes it one further. -/
theorem State.Reached.step_core {s : State} {k n : Nat} {msg : List Byte} {rest : List Event} (h : s.Reached k msg n)
    (hn : n < stepCount msg.length) (ha : s.agenda = .core k :: rest) :
    ∃ t, step s = .next t ∧ t.agenda = rest ∧ t.engines.length = s.engines.length ∧ t.Reached k msg (n + 1) := by
  obtain ⟨hfits, hadmits, e, ph, hk, hf, hph, rfl⟩ := h
  have hrun : ph.inRun msg.length := hph.1
  have hblk : ∀ j, ph = .accum j → blkSucc s.params j = j + 1 := by
    rintro j rfl
    exact fits_blkSucc hfits hadmits hrun
  obtain ⟨e', hstep, hf', hph'⟩ := step_phase (.inl ha) hk hf hblk hph
  have hnext : (ph.next msg.length).index msg.length = ph.index msg.length + 1 :=
    Phase.index_next hrun (by rintro rfl; exact lt_irrefl _ hn)
  exact ⟨_, hstep, rfl, State.length_setCur _ _, hfits, hadmits, e', _, State.cur_setCur (s := s.take k rest) hk e', hf',
    hph', hnext⟩

/-- An RDSTAT to the engine leaves it where it is (R201, R206). -/
theorem State.Reached.step_rdstat {s : State} {k n : Nat} {msg payload : List Byte} {rest : List Event}
    (h : s.Reached k msg n) (ha : s.agenda = .host k 0x02#8 payload :: rest) :
    ∃ t, step s = .next t ∧ t.agenda = rest ∧ t.engines.length = s.engines.length ∧ t.Reached k msg n := by
  obtain ⟨e, hk⟩ := h.exists_engine
  have hstep := step_host_run (i := .rdstat) ha hk rfl
  rw [exec_rdstat (s := s.takeHost k rest) hk] at hstep
  exact ⟨_, hstep, rfl, rfl, h.congr rfl rfl⟩

/-- A move of another engine leaves it where it is (R206, R232). -/
theorem State.Reached.step_other {s : State} {k n : Nat} {msg : List Byte} {ev : Event} {rest : List Event}
    (h : s.Reached k msg n) (ha : s.agenda = ev :: rest) (htarget : ev.target < s.engines.length)
    (hother : ev.target ≠ k) (hwait : ∀ j, ev ≠ .wait j) :
    ∃ t, step s = .next t ∧ t.agenda = rest ∧ t.engines.length = s.engines.length ∧ t.Reached k msg n := by
  obtain ⟨t, hstep, ht, hparams, hlen⟩ := step_next_of_event ha htarget hwait
  obtain ⟨-, -, -, -, -, hothers⟩ := step_next_machine hstep
  exact ⟨t, hstep, ht, hlen, h.congr hparams (hothers k (by rw [State.mover_cons ha]; exact hother.symm))⟩

/-- The moves that may stand among the core steps of engine `k` in a machine of `size` engines (R206, R232): RDSTATs to it
and any moves of the others. A WAIT puts further moves on the agenda and is not among them. -/
def Event.Harmless (ev : Event) (k size : Nat) : Prop :=
  ev.target < size ∧ (ev.target = k → ev = .core k ∨ ∃ payload, ev = .host k 0x02#8 payload) ∧ ∀ j, ev ≠ .wait j

/-- One such move counts only if it is the engine's core step. -/
theorem State.Reached.step_event {s : State} {k n : Nat} {msg : List Byte} {ev : Event} {rest : List Event}
    (h : s.Reached k msg n) (ha : s.agenda = ev :: rest) (hev : ev.Harmless k s.engines.length)
    (hn : n + [ev].count (.core k) ≤ stepCount msg.length) :
    ∃ t, step s = .next t ∧ t.agenda = rest ∧ t.engines.length = s.engines.length ∧
      t.Reached k msg (n + [ev].count (.core k)) := by
  obtain ⟨htarget, hself, hwait⟩ := hev
  by_cases hk : ev.target = k
  · obtain rfl | ⟨payload, rfl⟩ := hself hk
    · rw [List.count_singleton_self] at hn ⊢
      exact h.step_core hn ha
    · exact h.step_rdstat ha
  · have hcount : [ev].count (.core k) = 0 :=
      List.count_eq_zero.mpr fun hmem => hk (List.mem_singleton.mp hmem ▸ rfl)
    rw [hcount]
    exact h.step_other ha htarget hk hwait

/-- A list of such moves takes the engine as many steps further as it has core steps of the engine. -/
theorem State.Reached.run (moves : List Event) {s : State} {k n : Nat} {msg : List Byte} {rest : List Event}
    (h : s.Reached k msg n) (ha : s.agenda = moves ++ rest) (hmoves : ∀ ev ∈ moves, ev.Harmless k s.engines.length)
    (hn : n + moves.count (.core k) ≤ stepCount msg.length) :
    ∃ t, Host.Core.run Sys2Proof.core moves.length s = .next t ∧ t.agenda = rest ∧
      t.engines.length = s.engines.length ∧ t.Reached k msg (n + moves.count (.core k)) := by
  induction moves generalizing s n with
  | nil => exact ⟨s, rfl, ha, rfl, h⟩
  | cons ev moves ih =>
    obtain ⟨hev, hmoves⟩ := List.forall_mem_cons.mp hmoves
    rw [← List.singleton_append, List.count_append, ← Nat.add_assoc] at hn ⊢
    obtain ⟨u, hstep, hu, hlen, hreach⟩ := h.step_event ha hev (Nat.le_of_add_right_le hn)
    obtain ⟨t, hrun, ht, hlen', hreach'⟩ := ih hreach hu (hlen ▸ hmoves) hn
    exact ⟨t, (run_succ hstep).trans hrun, ht, hlen'.trans hlen, hreach'⟩

/-- Settles O43: the moves take the engine from INIT to the end of the run, where `DOUT` holds the digest. -/
theorem interleavingsDoNotChangeTheDigest : Obligations.InterleavingsDoNotChangeTheDigest := by
  intro s k e msg moves rest hfits hadmits hk hf hseq hb ha hmoves hcount
  have hinit : s.Reached k msg 0 := State.reached_zero hfits hadmits hk hf hseq hb
  obtain ⟨t, hrun, ht, -, hreach⟩ := hinit.run moves ha hmoves (by rw [hcount, Nat.zero_add])
  rw [hcount, Nat.zero_add] at hreach
  obtain ⟨e', hk', hended, -, hdout⟩ := hreach.digest
  exact ⟨t, e', hrun, ht, hk', hended, Engine.holdsDout_iff.mp hdout⟩

/-! ## DIGEST -/

/-- Every move of a round of core steps may stand among the engine's. -/
theorem State.harmless_of_mem_coreRound {s : State} {k : Nat} {ev : Event} (h : ev ∈ s.coreRound) :
    ev.Harmless k s.engines.length := by
  obtain ⟨j, hj, rfl⟩ := State.mem_coreRound.mp h
  exact ⟨hj, fun hjk => .inl (congrArg Event.core hjk), nofun⟩

/-- The poll of a WAIT that reads DONE = 0 puts a round of core steps before the next poll (R81, R187, log 17). -/
theorem State.Reached.step_wait_early {s : State} {k n : Nat} {msg : List Byte} {rest : List Event}
    (h : s.Reached k msg n) (hn : n < stepCount msg.length) (ha : s.agenda = .wait k :: rest) :
    ∃ t, step s = .next t ∧ t.agenda = t.coreRound ++ .wait k :: rest ∧ t.engines = s.engines ∧
      t.Reached k msg n := by
  obtain ⟨e, hk⟩ := h.exists_engine
  have hearly : isDone e.seq = false := h.isDone_eq_false hk hn
  exact ⟨_, step_wait ha hk, if_neg (Bool.eq_false_iff.mp hearly), rfl, h.congr rfl rfl⟩

/-- The poll of a WAIT that reads DONE = 1 is its last (R81). -/
theorem State.Reached.step_wait_done {s : State} {k : Nat} {msg : List Byte} {rest : List Event}
    (h : s.Reached k msg (stepCount msg.length)) (ha : s.agenda = .wait k :: rest) :
    ∃ t, step s = .next t ∧ t.agenda = rest ∧ t.Reached k msg (stepCount msg.length) := by
  obtain ⟨e, hk, -, hdone, -⟩ := h.digest
  exact ⟨_, step_wait ha hk, if_pos hdone, h.congr rfl rfl⟩

/-- With `m` core steps of the engine still to come, a WAIT on it takes `m` polls, each with a round of core steps after it,
and one last poll (R81, log 17). -/
theorem State.Reached.run_wait {m : Nat} {s : State} {k n : Nat} {msg : List Byte} {rest : List Event}
    (h : s.Reached k msg n) (hm : n + m = stepCount msg.length) (ha : s.agenda = .wait k :: rest) :
    ∃ t, Host.Core.run Sys2Proof.core ((s.engines.length + 1) * m + 1) s = .next t ∧ t.agenda = rest ∧
      t.Reached k msg (stepCount msg.length) := by
  induction m generalizing s n with
  | zero =>
    obtain rfl : n = stepCount msg.length := hm
    obtain ⟨t, hstep, ht, hreach⟩ := h.step_wait_done ha
    exact ⟨t, run_succ hstep, ht, hreach⟩
  | succ m ih =>
    obtain ⟨u, hpoll, hu, hengines, hpolled⟩ := h.step_wait_early (by omega) ha
    have hcount : u.coreRound.count (.core k) = 1 := by
      obtain ⟨e, hk⟩ := hpolled.exists_engine
      exact State.count_coreRound (List.getElem?_eq_some_iff.mp hk).1
    obtain ⟨v, hround, hv, hlen, hreach⟩ := hpolled.run u.coreRound hu
      (fun _ => State.harmless_of_mem_coreRound) (by omega)
    rw [hcount] at hreach
    rw [State.length_coreRound] at hround
    obtain ⟨t, hrun, ht, hend⟩ := ih hreach (by omega) hv
    refine ⟨t, ?_, ht, hend⟩
    rw [hlen, hengines] at hrun
    rw [hengines] at hround
    calc Host.Core.run Sys2Proof.core ((s.engines.length + 1) * (m + 1) + 1) s
        = Host.Core.run Sys2Proof.core (s.engines.length + ((s.engines.length + 1) * m + 1) + 1) s := by
          congr 1
          ring
      _ = Host.Core.run Sys2Proof.core (s.engines.length + ((s.engines.length + 1) * m + 1)) u := run_succ hpoll
      _ = Host.Core.run Sys2Proof.core ((s.engines.length + 1) * m + 1) v := run_add hround
      _ = .next t := hrun

/-- START of an admitted message puts an engine that is not BUSY at the beginning of its computation (R200). -/
theorem step_start_reached {s : State} {k : Nat} {msg : List Byte} {rest : List Event} {e : Engine}
    (hfits : s.params.fits = true) (hadmits : s.params.admits msg.length = true) (hk : s.engines[k]? = some e)
    (hf : e.faults = []) (hb : busy e.seq = false) (ha : s.agenda = .host k 0x01#8 msg :: rest) :
    ∃ t, step s = .next t ∧ t.agenda = rest ∧ t.engines.length = s.engines.length ∧ t.Reached k msg 0 := by
  have hstep := step_host_run (i := .start msg) ha hk rfl
  rw [exec_start_admitted (s := s.takeHost k rest) hk hadmits hb] at hstep
  have hload : ((s.takeHost k rest).setCur (e.load msg)).engines[k]? = some (e.load msg) :=
    State.cur_setCur (s := s.takeHost k rest) hk _
  exact ⟨_, hstep, rfl, State.length_setCur _ _, State.reached_zero hfits hadmits hload hf rfl rfl⟩

/-- RDDIG at the end of the computation answers the digest and leaves the engine there (R202). -/
theorem State.Reached.step_rddig {s : State} {k : Nat} {msg payload : List Byte} {rest : List Event}
    (h : s.Reached k msg (stepCount msg.length)) (ha : s.agenda = .host k 0x03#8 payload :: rest) :
    ∃ t e, step s = .next t ∧ t.agenda = rest ∧ t.engines[k]? = some e ∧ e.ended = true ∧
      t.reply = .digest (md5 msg) := by
  obtain ⟨e, hk, hended, hdone, hdout⟩ := h.digest
  have hstep := step_host_run (i := .rddig) ha hk rfl
  rw [exec_rddig_done (s := s.takeHost k rest) hk hdone hdout] at hstep
  exact ⟨_, e, hstep, rfl, hk, hended, rfl⟩

/-- Settles O42: START, the WAIT over all N(L) core steps, RDDIG. -/
theorem computeDigestReturnsTheDigest : Obligations.ComputeDigestReturnsTheDigest := by
  intro s k e msg rest hfits hadmits hk hf hb ha
  obtain ⟨u, hstart, hu, hlen, hreach⟩ := step_start_reached hfits hadmits hk hf hb ha
  obtain ⟨v, hwait, hv, hend⟩ := hreach.run_wait (Nat.zero_add _) hu
  obtain ⟨t, e', hrddig, ht, hk', hended, hreply⟩ := hend.step_rddig hv
  refine ⟨t, e', ?_, ht, hk', hended, hreply⟩
  rw [hlen] at hwait
  calc Host.Core.run Sys2Proof.core ((s.engines.length + 1) * stepCount msg.length + 3) s
      = Host.Core.run Sys2Proof.core ((s.engines.length + 1) * stepCount msg.length + 1 + 1) u := run_succ hstart
    _ = Host.Core.run Sys2Proof.core 1 v := run_add hwait
    _ = .next t := run_succ hrddig

end Sys2Proof.Machine
end

section
/-!
PROOF. The faults that can be raised (spec/60_exceptions.md R222): from the invariant, only those of a broken host duty.
-/

namespace Sys2Proof.Machine

/-- Recording a fault adds that fault alone (R39). -/
theorem Engine.eq_of_mem_faults_record {e : Engine} {f g : CoreFault} (hf : f ∈ (e.record g).faults)
    (hnew : f ∉ e.faults) : f = g :=
  (Engine.mem_faults_record.mp hf).resolve_left hnew

/-- The one fault START raises is StartWhileBusy (R200, code 5). -/
theorem exec_start_new_fault {s t : State} {e e' : Engine} {msg : List Byte} {f : CoreFault}
    (h : exec (.start msg) s = .next t) (hc : s.cur = some e) (hc' : t.cur = some e') (hf : f ∈ e'.faults)
    (hnew : f ∉ e.faults) : f = .startWhileBusy e.seq 0x01 := by
  obtain ⟨e0, he0, hcases⟩ := execStart_next h
  obtain rfl : e0 = e := Option.some.inj (he0.symm.trans hc)
  obtain ⟨-, rfl⟩ | ⟨-, -, rfl⟩ | ⟨-, -, rfl⟩ := hcases
  · obtain rfl : e0 = e' := Option.some.inj (hc.symm.trans hc')
    exact absurd hf hnew
  · obtain rfl := Option.some.inj ((State.cur_setCur hc _).symm.trans hc')
    exact Engine.eq_of_mem_faults_record hf hnew
  · obtain rfl := Option.some.inj ((State.cur_setCur hc _).symm.trans hc')
    exact absurd hf hnew

/-- With the invariant the one fault RDDIG raises is EarlyDigestRead (R202, code 6): in DONE every character is written. -/
theorem exec_rddig_new_fault {s t : State} {e e' : Engine} {f : CoreFault} (h : exec .rddig s = .next t)
    (hc : s.cur = some e) (hc' : t.cur = some e') (he : e.Inv s.params) (hf : f ∈ e'.faults) (hnew : f ∉ e.faults) :
    f = .earlyDigestRead e.seq 0x03 := by
  cases hd : isDone e.seq with
  | true => exact absurd (exec_rddig_faults_eq h hc hc' hd he ▸ hf) hnew
  | false =>
    rw [exec_rddig_early hc hd] at h
    obtain rfl := Host.Outcome.next.inj h
    obtain rfl := Option.some.inj ((State.cur_setCur hc _).symm.trans hc')
    exact Engine.eq_of_mem_faults_record hf hnew

/-- With the invariant a host command raises a fault of the host alone (R222, codes 5 and 6). -/
theorem exec_host_new_fault {i : Instr} {code : Byte} {payload : List Byte} {s t : State} {e e' : Engine} {f : CoreFault}
    (hd : decodeHost code payload = .ok i) (h : exec i s = .next t) (hc : s.cur = some e) (hc' : t.cur = some e')
    (he : e.Inv s.params) (hf : f ∈ e'.faults) (hnew : f ∉ e.faults) : 5 ≤ f.code := by
  obtain ⟨-, rfl⟩ | ⟨-, rfl⟩ | ⟨-, rfl⟩ := decodeHost_cases hd
  · rw [exec_start_new_fault h hc hc' hf hnew]
    exact Nat.le_refl 5
  · exact absurd ((execRdstat_frame h hc hc').1 ▸ hf) hnew
  · rw [exec_rddig_new_fault h hc hc' he hf hnew]
    exact Nat.le_succ 5

/-- Settles O37: the invariant keeps `SEQ` legal and gives every core step its operands, so what is left to raise a fault is a
reserved code or a command of the host. -/
theorem onlyHostDutyFaultsAreReachable : Obligations.OnlyHostDutyFaultsAreReachable := by
  rintro s t k e e' f ⟨hfits, -, hinv⟩ h hk hk' hf hnew
  have he : e.Inv s.params := hinv e (List.mem_of_getElem? hk)
  obtain rfl | ⟨g, rfl, ⟨-, ⟨x, hx⟩, -⟩ | ⟨code, _, _, -, -, rfl⟩⟩ | ⟨rest, i, hm, hnil, -, -, hc, hc'⟩ |
    ⟨code, payload, rest, i, -, hd, hx, hc, hc'⟩ | ⟨_, -, rfl⟩ := step_engine_cases h hk hk'
  · exact absurd hf hnew
  · obtain ⟨-, op, hop, -⟩ := he
    cases hop.symm.trans hx
  · rw [Engine.eq_of_mem_faults_record hf hnew]
    exact Nat.le_add_right 5 2
  · exact absurd (step_core_faults_eq hfits hm hnil h hc hc' he ▸ hf) hnew
  · exact exec_host_new_fault (s := s.takeHost k rest) hd hx hc hc' he hf hnew
  · cases hf

end Sys2Proof.Machine
end
